-- ==== Sys2Proof/Word.lean ====
section
/-! DEFINITION. The Word and the byte (00_scope.md R4, R6). A Word is 16 bits with a signed (two's complement) value,
`BitVec.toInt`, and an unsigned pattern, `BitVec.toNat`; every rule uses the signed value unless it says otherwise. -/

namespace Sys2Proof

/-- The unit of memory, registers, pc, opcodes and operands: 16 bits, signed (R4, R6, R10). -/
abbrev Word := BitVec 16

/-- One byte of a program image (R35). -/
abbrev Byte := BitVec 8

end Sys2Proof
end

