-- ==== Sys2Proof/Machine/Flags.lean ====
section
/-! DEFINITION. The core has no status flags and no condition codes (10_state.md R22). What other machines compute into
flags this one computes as Words: the sum, with no carry or overflow recorded (41_data_instructions.md R86), the result of a
comparison (R87), and the truth of a condition register (42_control_instructions.md R90). -/

namespace Sys2Proof.Machine

/-- `wrap16(a + b)`: the true sum of the signed values, reduced to 16 bits, with no trap (R81, R86; D1, log entry 7). -/
def addWords (a b : Word) : Word := BitVec.ofInt 16 (a.toInt + b.toInt)

/-- The comparison of the signed values: -1 less, 0 equal, 1 greater (R82, R87; D2, log entry 8). -/
def compareWords (a b : Word) : Word :=
  if a.toInt < b.toInt then 0xFFFF#16 else if a.toInt = b.toInt then 0x0000#16 else 0x0001#16

/-- Every nonzero pattern is true; only `0x0000` falls through (R90). -/
abbrev IsTrue (w : Word) : Prop := w ≠ 0x0000#16

end Sys2Proof.Machine
end

