-- ==== Sys2Proof/Config.lean ====
section
/-! DEFINITION. The implementation parameters at the values this hardware takes (00_scope.md R4, D20; log entry 18).
The spec leaves no value free in a run (40_execution_engine.md R76), so there is no opaque constant here. -/

namespace Sys2Proof.Config

/-- `MEM_SPACE`: the number of Words of Memory (R4, R30). -/
abbrev memSpace : Nat := 256

/-- `NUM_REGS`: the number of general registers (R4, R13). -/
abbrev numRegs : Nat := 256

/-- `MAX_OPCODE`: the highest defined opcode value (R4). -/
abbrev maxOpcode : Int := 6

/-- The size of a Word in bytes of the image (R4). -/
abbrev wordBytes : Nat := 2

/-- The largest program image in bytes, `MEM_SPACE * 2` (R4, R127). -/
abbrev maxImageBytes : Nat := memSpace * wordBytes

/-- The Words of the longest instruction (R46). -/
abbrev longestInstr : Nat := 4

end Sys2Proof.Config
end

