-- ==== Sys2Proof/Syntax.lean ====
section
/-! DEFINITION. The instructions as syntax: one constructor per row of spec/opcode_table.json (30_encoding.md R53), each
with its operand Words in Memory order (R50). An operand is the whole Word as fetched: R52 and R71 make a register index
outside 0..255 a run-time abort of the instruction, so such an instruction is a term too, one that is not well-formed
(log entry 6). -/

namespace Sys2Proof

/-- An operand Word in a register-index position (R50, R52). -/
abbrev RegOperand := Word

/-- An operand Word in an immediate position (R50, R51). -/
abbrev Immediate := Word

/-- The seven defined opcodes (R53). -/
inductive Opcode where
  | halt | add | cmp | jmp | jmpc | mov | set
  deriving DecidableEq, Repr

/-- The seven instructions (R50, R53). The spec's operand names `from` and `to` are written `src` and `dst`. -/
inductive Instr where
  /-- HALT: stop the engine normally (42_control_instructions.md R91). -/
  | halt
  /-- ADD from, value, to (41_data_instructions.md R81). -/
  | add (src : RegOperand) (value : Immediate) (dst : RegOperand)
  /-- CMP left, right, to (R82). -/
  | cmp (left : RegOperand) (right : RegOperand) (dst : RegOperand)
  /-- JMP target (R89). -/
  | jmp (target : RegOperand)
  /-- JMPC target, condition (R90). -/
  | jmpc (target : RegOperand) (condition : RegOperand)
  /-- MOV from, to (R83). -/
  | mov (src : RegOperand) (dst : RegOperand)
  /-- SET value, to (R84). -/
  | set (value : Immediate) (dst : RegOperand)
  deriving DecidableEq, Repr

end Sys2Proof
end

