-- ==== Sys2Proof/Decode.lean ====
section
/-! DEFINITION. The decoder (total, rejecting by name) and after it the encoder, both from the opcode map and the operand
table of 30_encoding.md (R46 to R55), and the byte order of the program image (20_memory.md R35; 30_encoding.md R62). -/

namespace Sys2Proof

/-- The opcode Word of each opcode (R53, column "pattern"). -/
def Opcode.word : Opcode → Word
  | .halt => 0x0000#16
  | .add => 0x0001#16
  | .cmp => 0x0002#16
  | .jmp => 0x0003#16
  | .jmpc => 0x0004#16
  | .mov => 0x0005#16
  | .set => 0x0006#16

/-- `ARITY(op)`: the number of operand Words after the opcode Word (00_scope.md R4, R46). -/
def Opcode.arity : Opcode → Nat
  | .halt => 0
  | .add => 3
  | .cmp => 3
  | .jmp => 1
  | .jmpc => 2
  | .mov => 2
  | .set => 2

/-- The rows of the opcode map (R53). -/
def Opcode.table : List Opcode := [.halt, .add, .cmp, .jmp, .jmpc, .mov, .set]

/-- Dispatch on the whole opcode Word: the row it matches, or none (R48, R53, R80). -/
def opcode? (w : Word) : Option Opcode := Opcode.table.find? (fun o => o.word == w)

/-- Why a sequence of Words or bytes is no instruction. -/
inductive DecodeError where
  /-- There is no opcode Word. -/
  | noOpcode
  /-- The opcode Word is not one of 0..6 (R55). -/
  | unfoundInstruction (op : Word)
  /-- The opcode is defined and fewer Words follow it than its arity (R46). -/
  | truncated (op : Word)
  deriving DecidableEq, Repr

/-- The operand Words of an opcode, in Memory order (R50), and the Words after them; none if there are too few. -/
def decodeOperands (o : Opcode) (ws : List Word) : Option (Instr × List Word) :=
  match o with
  | .halt => some (.halt, ws)
  | .add => match ws with
    | src :: value :: dst :: rest => some (.add src value dst, rest)
    | _ => none
  | .cmp => match ws with
    | left :: right :: dst :: rest => some (.cmp left right dst, rest)
    | _ => none
  | .jmp => match ws with
    | target :: rest => some (.jmp target, rest)
    | _ => none
  | .jmpc => match ws with
    | target :: condition :: rest => some (.jmpc target condition, rest)
    | _ => none
  | .mov => match ws with
    | src :: dst :: rest => some (.mov src dst, rest)
    | _ => none
  | .set => match ws with
    | value :: dst :: rest => some (.set value dst, rest)
    | _ => none

/-- Reads one instruction from a sequence of Words and gives the Words after it (R46, R49, R55). -/
def decodeWords : List Word → Except DecodeError (Instr × List Word)
  | [] => .error .noOpcode
  | op :: ws =>
    match opcode? op with
    | none => .error (.unfoundInstruction op)
    | some o =>
      match decodeOperands o ws with
      | none => .error (.truncated op)
      | some r => .ok r

/-- The Word of two image bytes, low byte first: `b[2k] + 256 * b[2k+1]` (R35; 70_reset_and_hazards.md R128, D9). -/
def wordOfBytes (lo hi : Byte) : Word := BitVec.ofNat 16 (lo.toNat + 256 * hi.toNat)

/-- `zext_16(w) mod 256`, the first image byte of a Word (R62). -/
def lowByte (w : Word) : Byte := BitVec.ofNat 8 (w.toNat % 256)

/-- `zext_16(w) div 256`, the second image byte of a Word (R62). -/
def highByte (w : Word) : Byte := BitVec.ofNat 8 (w.toNat / 256)

/-- The whole Words of a byte sequence (R35). A last odd byte is no Word (log entry 19). -/
def wordsOfBytes : List Byte → List Word
  | lo :: hi :: rest => wordOfBytes lo hi :: wordsOfBytes rest
  | [_] => []
  | [] => []

/-- The image bytes of a sequence of Words (R62). -/
def bytesOfWords : List Word → List Byte
  | [] => []
  | w :: ws => lowByte w :: highByte w :: bytesOfWords ws

/-- The opcode of an instruction. -/
def Instr.opcode : Instr → Opcode
  | .halt => .halt
  | .add _ _ _ => .add
  | .cmp _ _ _ => .cmp
  | .jmp _ => .jmp
  | .jmpc _ _ => .jmpc
  | .mov _ _ => .mov
  | .set _ _ => .set

/-- The length of an instruction in Words, `1 + ARITY(op)` (R46, R49). -/
def Instr.length (i : Instr) : Nat := 1 + i.opcode.arity

/-- Reads one instruction from a sequence of bytes and gives the bytes after it. -/
def decodeBytes (bs : List Byte) : Except DecodeError (Instr × List Byte) :=
  match decodeWords (wordsOfBytes bs) with
  | .error e => .error e
  | .ok (i, _) => .ok (i, bs.drop (Config.wordBytes * i.length))

/-- The operand Words of an instruction in Memory order (the table of R50). -/
def Instr.operands : Instr → List Word
  | .halt => []
  | .add src value dst => [src, value, dst]
  | .cmp left right dst => [left, right, dst]
  | .jmp target => [target]
  | .jmpc target condition => [target, condition]
  | .mov src dst => [src, dst]
  | .set value dst => [value, dst]

/-- The Words of an instruction: its opcode Word, then its operand Words (R46). -/
def encode (i : Instr) : List Word := i.opcode.word :: i.operands

/-- The image bytes of an instruction (R62). -/
def encodeBytes (i : Instr) : List Byte := bytesOfWords (encode i)

/-- The Words of an instruction numbered as spec/opcode_table.json numbers its bits: bit 0 is the least significant bit of
the first Word, and each later Word counts on from it; every bit from `nbits` up is 0, up to the longest instruction. -/
def tableWords (nbits w : Nat) : List Word :=
  (List.range Config.longestInstr).map (fun k => BitVec.ofNat 16 (w % 2 ^ nbits / 2 ^ (16 * k)))

/-- The instruction the decoder reads from a table row's bits laid out as the image stores them. -/
def decodeTableWord (nbits w : Nat) : Option Instr :=
  match decodeBytes (bytesOfWords (tableWords nbits w)) with
  | .error _ => none
  | .ok (i, _) => some i

end Sys2Proof
end

