-- ==== Sys2Proof/Machine/State.lean ====
section
/-! DEFINITION. The state of the core as plain data: the tuple (M, x, pc, run_state, cycles, abort_cause, out) of
10_state.md R29, with its reset values, and the reasons a step can stop. -/

namespace Sys2Proof.Machine

/-- The state of the Execution Engine's state machine (R23). -/
inductive RunState where
  | running | halted | aborted
  deriving DecidableEq, Repr

/-- The run-time conditions that abort the engine (R25; 60_exceptions.md R97). `NONE` is the absence of one. -/
inductive AbortCause where
  /-- The opcode Word names no instruction (stage S4, R98). -/
  | unfoundInstruction
  /-- The instruction lies too close to the end of Memory (stage S5, R99). -/
  | operandsOutOfBounds
  /-- The pc indexes no cell of Memory (stage S0, R100). -/
  | pcOutOfRange
  /-- A register-index operand is outside 0..255 (stage S5b, R101). -/
  | regIndexOutOfRange
  deriving DecidableEq, Repr

/-- The events of the output stream (R26). -/
inductive Event where
  /-- `Trace(op)`: an opcode Word was fetched. -/
  | trace (op : Word)
  /-- `BadOpcode(op)`: it is outside 0..6. -/
  | badOpcode (op : Word)
  /-- `HaltedAt(n)`: the engine halted after `n` completed cycles. -/
  | haltedAt (n : Nat)
  /-- `AbortedAt(cause, n)`: the engine aborted after `n` completed cycles. -/
  | abortedAt (cause : AbortCause) (n : Nat)
  deriving DecidableEq, Repr

/-- Memory as (byte address, byte) pairs: Word `k` is the bytes `2k` (low) and `2k + 1` (high) (log entry 1). The one
canonical form of it is `Memory.wf` (Machine/Ops.lean). -/
abbrev Memory := List Host.Cell

/-- The register file: 256 Words, `x[0]` first (R13). -/
structure RegFile where
  /-- The Words in index order. -/
  words : List Word
  /-- There are exactly `NUM_REGS` of them. -/
  length_words : words.length = Config.numRegs
  deriving DecidableEq, Repr

/-- The complete state (R29). -/
structure State where
  /-- The general registers `x[0]`..`x[255]` (R13). -/
  regs : RegFile
  /-- The program counter, a Word of its own (R17, R18). -/
  pc : Word
  /-- The engine's state (R23). -/
  runState : RunState
  /-- The number of completed steps, unbounded (R24). -/
  cycles : Nat
  /-- What aborted the engine; `none` is `NONE` (R25). -/
  abortCause : Option AbortCause
  /-- The output stream, oldest event first (R26). -/
  out : List Event
  /-- Memory (20_memory.md R30). -/
  mem : Memory
  deriving DecidableEq, Repr

/-- Why the machine has no further step. -/
inductive Fault where
  /-- Raised by `step` alone, when `run_state` is Halted: no step exists from it (40_execution_engine.md R78). Safe. -/
  | engineHalted
  /-- Raised by `step` alone, when `run_state` is Aborted: no step exists from it (R78; 60_exceptions.md R109). Safe. -/
  | engineAborted
  deriving DecidableEq, Repr

/-- Why an instruction has no meaning in the model. -/
inductive Refusal where
  /-- Raised by a rejected arm of `exec`; no arm of this model raises it. Safe. -/
  | notModelled (mnemonic : String)
  deriving DecidableEq, Repr

/-- The machine right after reset: the table of R29 (70_reset_and_hazards.md R119). Memory has nothing listed, so every
cell reads 0. -/
def State.reset : State where
  regs := ⟨List.replicate Config.numRegs 0#16, List.length_replicate⟩
  pc := 0#16
  runState := .running
  cycles := 0
  abortCause := none
  out := []
  mem := []

end Sys2Proof.Machine
end

