-- ==== Sys2Proof/Machine/Ops.lean ====
section
/-! DEFINITION. The named operations over memory, registers, the output stream and the engine: `MemRead`, `MemWrite`,
register read and write, `emit`, the halt, `raise Abort` and the end of a completed step (00_scope.md R7;
40_execution_engine.md R67, R73 to R75; 60_exceptions.md R104). An abort is the core's only exception; there is no return
from one (R109), so no operation stands beside `raiseAbort`. -/

namespace Sys2Proof.Machine

/-- What an address that no cell lists reads as: 0, the reset contents (20_memory.md R34, R39). -/
def Memory.unlisted : Byte := 0#8

/-- The canonical form: addresses strictly rising, no entry that reads as unlisted, every address inside the 256 Words. -/
abbrev Memory.wf (m : Memory) : Prop :=
  m.Pairwise (fun c d => c.1 < d.1) ∧
    ∀ c ∈ m, c.2 ≠ Memory.unlisted ∧ c.1 < Config.wordBytes * Config.memSpace

/-- One byte of memory. No access of the machine moves less than a Word (R37); this is the representation's own read. -/
def Memory.readByte (m : Memory) (a : Nat) : Byte :=
  match m with
  | [] => Memory.unlisted
  | (k, b) :: rest => if k = a then b else Memory.readByte rest a

/-- Writes one byte and keeps the canonical form: writing what an unlisted address reads as removes the entry. -/
def Memory.writeByte (m : Memory) (a : Nat) (b : Byte) : Memory :=
  match m with
  | [] => if b = Memory.unlisted then [] else [(a, b)]
  | (k, c) :: rest =>
    if a < k then (if b = Memory.unlisted then (k, c) :: rest else (a, b) :: (k, c) :: rest)
    else if a = k then (if b = Memory.unlisted then rest else (a, b) :: rest)
    else (k, c) :: Memory.writeByte rest a b

/-- `M[k]`, the Word of cell `k` (R30, R37). -/
def Memory.readWord (m : Memory) (k : Nat) : Word :=
  wordOfBytes (m.readByte (Config.wordBytes * k)) (m.readByte (Config.wordBytes * k + 1))

/-- Writes the Word of cell `k`; the host's load alone does so (R32, R33). -/
def Memory.writeWord (m : Memory) (k : Nat) (w : Word) : Memory :=
  (m.writeByte (Config.wordBytes * k) (lowByte w)).writeByte (Config.wordBytes * k + 1) (highByte w)

/-- `MemRead(addr, n)`: the Words `M[addr] .. M[addr+n-1]` (R7, R34). Its callers keep `addr + n` within Memory. -/
def Memory.read (m : Memory) (addr n : Nat) : List Word := (List.range' addr n).map m.readWord

/-- `MemWrite(addr, n, v)`: writes Words at `M[addr]..` (R7; 70_reset_and_hazards.md R128). -/
def Memory.write (m : Memory) (addr : Nat) (ws : List Word) : Memory :=
  match ws with
  | [] => m
  | w :: rest => Memory.write (m.writeWord addr w) (addr + 1) rest

/-- The Word at index `i` of a register file. All 256 are alike (10_state.md R14). -/
def RegFile.get (r : RegFile) (i : Fin Config.numRegs) : Word :=
  r.words[i.val]'(by rw [r.length_words]; exact i.isLt)

/-- The register file with the Word at index `i` replaced. -/
def RegFile.set (r : RegFile) (i : Fin Config.numRegs) (v : Word) : RegFile where
  words := r.words.set i.val v
  length_words := by rw [List.length_set, r.length_words]

/-- `x[i]` (R7, R13). -/
def State.readReg (s : State) (i : Fin Config.numRegs) : Word := s.regs.get i

/-- `x[i] <- v` (R7). -/
def State.writeReg (s : State) (i : Fin Config.numRegs) (v : Word) : State :=
  { s with regs := s.regs.set i v }

/-- `emit E`: appends an event to the output stream (R7, 10_state.md R26). -/
def State.emit (s : State) (e : Event) : State := { s with out := s.out ++ [e] }

/-- The halt check's effect: `run_state <- Halted`, `emit HaltedAt(cycles)` (40_execution_engine.md R67). -/
def State.halt (s : State) : State := { s with runState := .halted }.emit (.haltedAt s.cycles)

/-- `raise Abort(cause)`: `run_state <- Aborted`, `abort_cause <- cause`, `emit AbortedAt(cause, cycles)`, and nothing
else; it saves nothing and goes nowhere (60_exceptions.md R104). -/
def State.raiseAbort (s : State) (cause : AbortCause) : State :=
  { s with runState := .aborted, abortCause := some cause }.emit (.abortedAt cause s.cycles)

/-- The end of a completed step: `pc <- next_pc` (S7), then `cycles <- cycles + 1` (S8) (R73, R74). -/
def State.complete (s : State) (nextPc : Word) : State :=
  { s with pc := nextPc, cycles := s.cycles + 1 }

end Sys2Proof.Machine
end

