-- ==== Sys2Proof/Machine/Operands.lean ====
section
/-! DEFINITION. The operand forms (30_encoding.md R50: register index and immediate), the two checks that come before an
effect (40_execution_engine.md R69, R71) and the sequential next pc (R72). -/

namespace Sys2Proof.Machine

/-- The register that an operand Word names: its whole signed value, if that is in 0..255; never masked (R52). -/
def regIndex? (w : Word) : Option (Fin Config.numRegs) :=
  if h : 0 ≤ w.toInt ∧ w.toInt < (Config.numRegs : Int) then some ⟨w.toInt.toNat, by omega⟩ else none

/-- The operand Word that names register `i`. -/
def regWord (i : Fin Config.numRegs) : Word := BitVec.ofNat 16 i.val

/-- An immediate operand: the whole operand Word, not scaled, shifted or extended (R51). -/
def immediate (w : Word) : Word := w

/-- Stage S5's condition `pc + 1 + arity >= MEM_SPACE`, in unbounded integers (R69, 90_conflicts.md C2). -/
abbrev OperandsOutOfBounds (o : Opcode) (pc : Word) : Prop :=
  (Config.memSpace : Int) ≤ pc.toInt + 1 + (o.arity : Int)

/-- The sequential next pc, `pc + arity + 1` (R72; 10_state.md R20). -/
def sequentialPc (o : Opcode) (s : State) : Word := BitVec.ofInt 16 (s.pc.toInt + (o.arity : Int) + 1)

/-- Stage S5: the operand-bound check, then the rest of the step (R69). -/
def withOperands (o : Opcode) (s : State) (rest : Host.Outcome State Fault Refusal) :
    Host.Outcome State Fault Refusal :=
  if OperandsOutOfBounds o s.pc then .next (s.raiseAbort .operandsOutOfBounds) else rest

/-- Stage S5b for one register-index operand: the rest of the step runs with the register it names, or the instruction
aborts with no effect (R71). A meaning names all its register operands before it reads or writes any. -/
def withReg (w : RegOperand) (s : State) (rest : Fin Config.numRegs → Host.Outcome State Fault Refusal) :
    Host.Outcome State Fault Refusal :=
  match regIndex? w with
  | none => .next (s.raiseAbort .regIndexOutOfRange)
  | some i => rest i

end Sys2Proof.Machine
end

