-- ==== Sys2Proof/Machine/Control.lean ====
section
/-! DEFINITION. JMP, JMPC and HALT (42_control_instructions.md R89 to R91): stages S5, S5b, S6, S7 and S8 of the jumps, and
stage S3 for HALT. A taken jump lands on the register's value exactly; nothing is added (40_execution_engine.md R73, D3, log
entry 9). -/

namespace Sys2Proof.Machine

/-- JMP: next pc `x[target]`, the whole Word unchanged (R89). -/
def execJmp (target : RegOperand) (s : State) : Host.Outcome State Fault Refusal :=
  withOperands .jmp s <| withReg target s fun t => .next (s.complete (s.readReg t))

/-- JMPC: next pc `x[target]` if `x[condition]` is not 0, else `pc + 3`; both indices are checked in either case (R90). -/
def execJmpc (target condition : RegOperand) (s : State) : Host.Outcome State Fault Refusal :=
  withOperands .jmpc s <| withReg target s fun t => withReg condition s fun c =>
    .next (s.complete (if IsTrue (s.readReg c) then s.readReg t else sequentialPc .jmpc s))

/-- HALT: `run_state <- Halted`, `emit HaltedAt(cycles)`; no bound check, no advance, no count (R67, R91). -/
def execHalt (s : State) : Host.Outcome State Fault Refusal := .next s.halt

end Sys2Proof.Machine
end

