-- ==== Sys2Proof/Machine/Data.lean ====
section
/-! DEFINITION. ADD, CMP, MOV and SET (41_data_instructions.md R81 to R85): stages S5, S5b, S6, S7 and S8 of each. All
sources are read before the destination is written (00_scope.md R8). -/

namespace Sys2Proof.Machine

/-- ADD: `x[to] <- wrap16(x[from] + value)`, next pc `pc + 4` (R81). -/
def execAdd (src : RegOperand) (value : Immediate) (dst : RegOperand) (s : State) : Host.Outcome State Fault Refusal :=
  withOperands .add s <| withReg src s fun f => withReg dst s fun t =>
    .next ((s.writeReg t (addWords (s.readReg f) (immediate value))).complete (sequentialPc .add s))

/-- CMP: `x[to] <- -1, 0 or 1`, next pc `pc + 4` (R82). -/
def execCmp (left right dst : RegOperand) (s : State) : Host.Outcome State Fault Refusal :=
  withOperands .cmp s <| withReg left s fun l => withReg right s fun r => withReg dst s fun t =>
    .next ((s.writeReg t (compareWords (s.readReg l) (s.readReg r))).complete (sequentialPc .cmp s))

/-- MOV: `x[to] <- x[from]`, next pc `pc + 3` (R83). -/
def execMov (src dst : RegOperand) (s : State) : Host.Outcome State Fault Refusal :=
  withOperands .mov s <| withReg src s fun f => withReg dst s fun t =>
    .next ((s.writeReg t (s.readReg f)).complete (sequentialPc .mov s))

/-- SET: `x[to] <- value`, next pc `pc + 3` (R84). -/
def execSet (value : Immediate) (dst : RegOperand) (s : State) : Host.Outcome State Fault Refusal :=
  withOperands .set s <| withReg dst s fun t =>
    .next ((s.writeReg t (immediate value)).complete (sequentialPc .set s))

end Sys2Proof.Machine
end

