-- ==== Sys2Proof/Machine/Dispatch.lean ====
section
/-! DEFINITION. One arm per instruction, each a direct call of its meaning (30_encoding.md R53). -/

namespace Sys2Proof.Machine

def exec (i : Instr) (s : State) : Host.Outcome State Fault Refusal :=
  match i with
  | .halt => Sys2Proof.Machine.execHalt s
  | .add src value dst => Sys2Proof.Machine.execAdd src value dst s
  | .cmp left right dst => Sys2Proof.Machine.execCmp left right dst s
  | .jmp target => Sys2Proof.Machine.execJmp target s
  | .jmpc target condition => Sys2Proof.Machine.execJmpc target condition s
  | .mov src dst => Sys2Proof.Machine.execMov src dst s
  | .set value dst => Sys2Proof.Machine.execSet value dst s

end Sys2Proof.Machine
end

