-- ==== Sys2Proof/Machine/Fetch.lean ====
section
/-! DEFINITION. Stages S0 to S4 of a step and the operand read (40_execution_engine.md R64 to R70): the pc range check, the
opcode fetch with its events, dispatch, and the instruction at the pc. -/

namespace Sys2Proof.Machine

/-- Stage S0's condition for a fetch: the pc indexes a cell of Memory (R64). -/
abbrev PcInRange (pc : Word) : Prop := 0 ≤ pc.toInt ∧ pc.toInt < (Config.memSpace : Int)

/-- Stage S2's condition: the opcode is negative or above `MAX_OPCODE` (R66). -/
abbrev IsBadOpcode (op : Word) : Prop := op.toInt < 0 ∨ Config.maxOpcode < op.toInt

/-- The opcode Word `M[pc]` (R65). -/
def fetchOpcode (s : State) : Word := s.mem.readWord s.pc.toNat

/-- `emit Trace(op)` (S1), then `emit BadOpcode(op)` if the range check fails (S2); no other effect (R65, R66). -/
def traceOpcode (op : Word) (s : State) : State :=
  if IsBadOpcode op then (s.emit (.trace op)).emit (.badOpcode op) else s.emit (.trace op)

/-- The Words at the pc that the decoder sees: as many as the longest instruction has, none beyond the last cell (R34,
R46; log entry 4). -/
def fetchWords (s : State) : List Word :=
  s.mem.read s.pc.toNat (min Config.longestInstr (Config.memSpace - s.pc.toNat))

/-- The abort of a step whose Words are no instruction: an opcode that names none (S4, R68), or operand Words beyond the
last cell, which is a case of the operand-bound check (S5, R69; log entry 4). -/
def abortOfDecodeError : DecodeError → AbortCause
  | .noOpcode => .pcOutOfRange
  | .unfoundInstruction _ => .unfoundInstruction
  | .truncated _ => .operandsOutOfBounds

/-- Stages S0 to S4: the state after the fetch's events, and the instruction at the pc or the cause of an abort. An
out-of-range pc reads no Memory and emits no Trace (R64, R100). -/
def fetch (s : State) : State × Except AbortCause Instr :=
  if PcInRange s.pc then
    (traceOpcode (fetchOpcode s) s,
      match decodeWords (fetchWords s) with
      | .error e => .error (abortOfDecodeError e)
      | .ok (i, _) => .ok i)
  else (s, .error .pcOutOfRange)

end Sys2Proof.Machine
end

