-- ==== Sys2Proof/Machine/Step.lean ====
section
/-! DEFINITION. One step of the Execution Engine (40_execution_engine.md R63 to R75), and the placing of an instruction
where the next step fetches. -/

namespace Sys2Proof.Machine

/-- The step: taken only while Running (R63); no step exists from Halted or Aborted (R78, log entry 2). Fetching gives the
instruction, which runs on the state after the fetch's events, or the cause of an abort. -/
def step (s : State) : Host.Outcome State Fault Refusal :=
  match s.runState with
  | .halted => .fault .engineHalted
  | .aborted => .fault .engineAborted
  | .running =>
    match fetch s with
    | (s', .ok i) => exec i s'
    | (s', .error cause) => .next (s'.raiseAbort cause)

/-- The state with a table row's Words stored at the pc, in the cells that exist; it stands for the host's load of such a
program (log entry 3). Nothing else changes. -/
def State.withFetchWord (s : State) (nbits w : Nat) : State :=
  { s with mem := s.mem.write s.pc.toNat ((tableWords nbits w).take (Config.memSpace - s.pc.toNat)) }

end Sys2Proof.Machine
end

