-- ==== Sys2Proof/Machine/Boot.lean ====
section
/-! DEFINITION. The host's side of the interface (70_reset_and_hazards.md R119 to R132): the load of a program image as a
function with an error result (R124, D17), the launch state of a run, and what the host reads after it. Reset is
`State.reset`. -/

namespace Sys2Proof.Machine

/-- Why a load fails (R126, R127). `SourceNotFound` concerns the host's file system only, and a load that takes a byte
sequence has no such case (R125). -/
inductive LoadError where
  /-- The byte length is not a multiple of the Word size (R126). -/
  | malformedProgram
  /-- The byte length exceeds 512 (R127). -/
  | programTooLarge
  deriving DecidableEq, Repr

/-- The load: the length checks in the order of R126 and R127, then the copy of the image's Words from cell 0 into a
zeroed Memory (R128). The empty image loads (R129). -/
def loadImage (image : List Byte) : Except LoadError Memory :=
  if image.length % Config.wordBytes ≠ 0 then .error .malformedProgram
  else if Config.maxImageBytes < image.length then .error .programTooLarge
  else .ok (Memory.write State.reset.mem 0 (wordsOfBytes image))

/-- The launch state of a run: reset, then the load; a failed load starts nothing (R123, R130). -/
def State.launch (image : List Byte) : Except LoadError State :=
  match loadImage image with
  | .error e => .error e
  | .ok m => .ok { State.reset with mem := m }

/-- The register dump: all 256 general registers in index order (R132). -/
def State.dump (s : State) : List Word := s.regs.words

/-- The number of a run state (10_state.md R23). -/
def RunState.code : RunState → Nat
  | .running => 0
  | .halted => 1
  | .aborted => 2

/-- The number of an abort cause (R25; 60_exceptions.md R97). -/
def AbortCause.code : AbortCause → Nat
  | .unfoundInstruction => 1
  | .operandsOutOfBounds => 2
  | .pcOutOfRange => 3
  | .regIndexOutOfRange => 4

/-- The number the host reads for `abort_cause`, with `NONE` as 0 (R25). -/
def State.abortCode (s : State) : Nat := (s.abortCause.map AbortCause.code).getD 0

end Sys2Proof.Machine
end

