-- ==== Sys2Proof/WellFormed.lean ====
section
/-! DEFINITION. Well-formed instructions: every Word in a register-index position names a register (30_encoding.md R50,
R52, R56). An immediate is never checked (R51). -/

namespace Sys2Proof

/-- A Word that names a general register: its signed value is in 0..255 (R52). -/
abbrev IsRegIndex (w : Word) : Prop := 0 ≤ w.toInt ∧ w.toInt < (Config.numRegs : Int)

/-- The Words of an instruction that stand in register-index positions, in Memory order (the table of R50). -/
def Instr.regOperands : Instr → List Word
  | .halt => []
  | .add src _ dst => [src, dst]
  | .cmp left right dst => [left, right, dst]
  | .jmp target => [target]
  | .jmpc target condition => [target, condition]
  | .mov src dst => [src, dst]
  | .set _ dst => [dst]

/-- Every register-index operand is in 0..255 (R52, R71). -/
abbrev Instr.WellFormed (i : Instr) : Prop := i.regOperands.all (fun w => decide (IsRegIndex w)) = true

end Sys2Proof
end

