-- ==== Sys2Proof/Safety.lean ====
section
/-! DEFINITION. What counts as a safe run, in the terms the statements use: when an instruction executes normally, what it
may write, and the invariant of a run (40_execution_engine.md R79; 10_state.md R25, R26). -/

namespace Sys2Proof.Machine

/-- When an instruction with opcode `o` passes the engine's own checks: Running (R63), the pc indexes Memory (R64), and the
operand-bound check passes (R69). Together with well-formed operands (R71) it then executes. -/
abbrev Executable (o : Opcode) (s : State) : Prop :=
  s.runState = .running ∧ PcInRange s.pc ∧ ¬ OperandsOutOfBounds o s.pc

/-- The Word that names the register an instruction writes, if it writes one (10_state.md R15). -/
def destination? : Instr → Option Word
  | .halt => none
  | .add _ _ dst => some dst
  | .cmp _ _ dst => some dst
  | .jmp _ => none
  | .jmpc _ _ => none
  | .mov _ dst => some dst
  | .set _ dst => some dst

/-- Everything but `pc`, `cycles` and the one register `d` is as before: every other register, every byte of Memory, the
engine's state, the abort cause and the output stream. -/
def UnchangedBut (d : Option (Fin Config.numRegs)) (s t : State) : Prop :=
  (∀ j, some j ≠ d → t.readReg j = s.readReg j) ∧ (∀ a, t.mem.readByte a = s.mem.readByte a) ∧
    t.runState = s.runState ∧ t.abortCause = s.abortCause ∧ t.out = s.out

/-- `abort_cause` is not `NONE` exactly in Aborted, and in Halted the pc indexes a 0 Word (R25, R79 (d) and (f)). -/
def StatusConsistent (s : State) : Prop :=
  (s.abortCause ≠ none ↔ s.runState = .aborted) ∧
    (s.runState = .halted → PcInRange s.pc ∧ s.mem.readWord s.pc.toNat = 0x0000#16)

/-- An opcode Word of an instruction that can complete: one of 1..6. -/
abbrev IsExecutableOpcode (op : Word) : Prop := 1 ≤ op.toInt ∧ op.toInt ≤ Config.maxOpcode

/-- The events by which a run ends with the given cause after `n` cycles (R26, R64 to R71). -/
def AbortEvents : AbortCause → Nat → List Event → Prop
  | .pcOutOfRange, n, es => es = [.abortedAt .pcOutOfRange n]
  | .unfoundInstruction, n, es =>
    ∃ op, IsBadOpcode op ∧ es = [.trace op, .badOpcode op, .abortedAt .unfoundInstruction n]
  | .operandsOutOfBounds, n, es =>
    ∃ op, IsExecutableOpcode op ∧ es = [.trace op, .abortedAt .operandsOutOfBounds n]
  | .regIndexOutOfRange, n, es =>
    ∃ op, IsExecutableOpcode op ∧ es = [.trace op, .abortedAt .regIndexOutOfRange n]

/-- The events after the completed cycles' traces: none while Running, then those of the halt or of the abort. -/
def EndEvents (s : State) (es : List Event) : Prop :=
  match s.runState with
  | .running => es = []
  | .halted => es = [.trace 0x0000#16, .haltedAt s.cycles]
  | .aborted => ∃ c, s.abortCause = some c ∧ AbortEvents c s.cycles es

/-- The output stream of a run from reset: one `Trace` of an opcode in 1..6 for each completed cycle, then the events of
the end (R26, R57, R74). -/
def OutConsistent (s : State) : Prop :=
  ∃ (ops : List Word) (es : List Event), s.out = ops.map Event.trace ++ es ∧ ops.length = s.cycles ∧
    (∀ op ∈ ops, IsExecutableOpcode op) ∧ EndEvents s es

/-- The invariant of a run: Memory in canonical form, and the status and the output stream consistent. -/
structure RunInvariant (s : State) : Prop where
  /-- Memory keeps its canonical form. -/
  mem : s.mem.wf
  /-- R79 (d) and (f). -/
  status : StatusConsistent s
  /-- The output stream tells the run. -/
  out : OutConsistent s

end Sys2Proof.Machine
end

