-- ==== Sys2Proof/Certificates/Slice0/Obligations.lean ====
section
/-! DEFINITION. The statements about the kaissi-oss/computer CORE, from the numbered rules of spec/. R<n> is a rule, D<n> a
decision of 92_eei_decisions.md (the spec's own choice where its source is silent). A statement that rests on a decision
names it and the log entry. -/

open Sys2Proof Sys2Proof.Machine

/-! ### Reset, load and host interface -/

/-- R119, R16: reset puts every register, the pc, the run state, the cycle counter, the abort cause, the output stream and
every cell of Memory at its reset value. -/
def Obligations.ResetPutsAllStateAtItsResetValue : Prop :=
  (∀ i, State.reset.readReg i = 0x0000#16) ∧ State.reset.pc = 0x0000#16 ∧ State.reset.runState = .running ∧
    State.reset.cycles = 0 ∧ State.reset.abortCause = none ∧ State.reset.out = [] ∧
    ∀ k < 256, State.reset.mem.readWord k = 0x0000#16

/-- R126, R127: an odd length is MalformedProgram, also above 512; an even length above 512 is ProgramTooLarge; no other
non-empty image fails. -/
def Obligations.LoadFailsExactlyOnOddOrOversizedImages : Prop :=
  ∀ image : List Byte,
    (image.length % 2 ≠ 0 → loadImage image = .error .malformedProgram) ∧
    (image.length % 2 = 0 → 512 < image.length → loadImage image = .error .programTooLarge) ∧
    (image.length % 2 = 0 → 0 < image.length → image.length ≤ 512 → ∀ e, loadImage image ≠ .error e)

/-- The copy of R128: an image of even length at most 512 loads, the empty one too (R129, D10, log entry 15); Word `k` is
image bytes `2k` and `2k+1`, low byte first (D9, log entry 15); every cell the image does not cover holds 0 (R39); and the
loaded Memory is in canonical form. -/
def Obligations.LoadCopiesTheImageIntoMemoryFromCellZero : Prop :=
  ∀ image : List Byte, image.length % 2 = 0 → image.length ≤ 512 →
    ∃ m, loadImage image = .ok m ∧ m.wf ∧
      (∀ (k : Nat) (h : 2 * k + 1 < image.length),
        (m.readWord k).toNat = image[2 * k].toNat + 256 * image[2 * k + 1].toNat) ∧
      (∀ k, image.length ≤ 2 * k → m.readWord k = 0x0000#16)

/-- R123, R130: a run starts from reset with only Memory filled by the load, and a failed load starts nothing (D17, log
entry 15). -/
def Obligations.LaunchIsResetWithTheLoadedMemory : Prop :=
  ∀ image : List Byte,
    (∀ e, loadImage image = .error e → State.launch image = .error e) ∧
    (∀ m, loadImage image = .ok m → ∃ s, State.launch image = .ok s ∧ s.mem = m ∧ s.regs = State.reset.regs ∧
      s.pc = 0x0000#16 ∧ s.runState = .running ∧ s.cycles = 0 ∧ s.abortCause = none ∧ s.out = [])

/-- R132: the register dump is all 256 general registers in index order. -/
def Obligations.DumpListsEveryRegisterInIndexOrder : Prop :=
  ∀ s : State, s.dump.length = 256 ∧ ∀ i : Fin 256, s.dump[i.val]? = some (s.readReg i)

/-- The numbers of `run_state` and `abort_cause` (R23, R25, R97); the numbers are the spec's own, D7, log entry 12. -/
def Obligations.StatusCodesAreTheSpecsNumbers : Prop :=
  RunState.running.code = 0 ∧ RunState.halted.code = 1 ∧ RunState.aborted.code = 2 ∧ State.reset.abortCode = 0 ∧
    ∀ s : State,
      (s.raiseAbort .unfoundInstruction).abortCode = 1 ∧ (s.raiseAbort .operandsOutOfBounds).abortCode = 2 ∧
      (s.raiseAbort .pcOutOfRange).abortCode = 3 ∧ (s.raiseAbort .regIndexOutOfRange).abortCode = 4

/-! ### Memory -/

/-- R34: a cell reads the Word last written to it, and every other cell keeps its Word. Canonical memories only: a list out
of order can hold a second entry of an address. -/
def Obligations.CellReadsTheWordLastWritten : Prop :=
  ∀ (m : Memory) (j k : Nat) (w : Word), m.wf → k < 256 →
    (m.writeWord k w).readWord j = if j = k then w else m.readWord j

/-- The model's form of Memory is canonical (log entry 1): two memories in it that read alike are equal. -/
def Obligations.CanonicalMemoriesThatReadAlikeAreEqual : Prop :=
  ∀ m m' : Memory, m.wf → m'.wf → (∀ k < 256, m.readWord k = m'.readWord k) → m = m'

/-- R33: for every step, `M` after the step equals `M` before it. -/
def Obligations.MemoryNeverChangesInAStep : Prop :=
  ∀ s t : State, step s = .next t → t.mem = s.mem

/-! ### Encoding -/

/-- R50, R53: each opcode Word 0 to 6 with its operand Words in Memory order is its instruction, and every other opcode Word
is illegal. -/
def Obligations.OpcodeMapReadsEveryWord : Prop :=
  ∀ (a b c op : Word) (rest : List Word),
    decodeWords (0x0000#16 :: rest) = .ok (.halt, rest) ∧
    decodeWords (0x0001#16 :: a :: b :: c :: rest) = .ok (.add a b c, rest) ∧
    decodeWords (0x0002#16 :: a :: b :: c :: rest) = .ok (.cmp a b c, rest) ∧
    decodeWords (0x0003#16 :: a :: rest) = .ok (.jmp a, rest) ∧
    decodeWords (0x0004#16 :: a :: b :: rest) = .ok (.jmpc a b, rest) ∧
    decodeWords (0x0005#16 :: a :: b :: rest) = .ok (.mov a b, rest) ∧
    decodeWords (0x0006#16 :: a :: b :: rest) = .ok (.set a b, rest) ∧
    ((op.toInt < 0 ∨ 6 < op.toInt) → decodeWords (op :: rest) = .error (.unfoundInstruction op))

/-- The Words of the spec's own listings (30_encoding.md R59; 95_test_vectors.md C1, J1, K1, M1) as image bytes. -/
def Obligations.ListedBytesDecodeToTheirInstructions : Prop :=
  decodeBytes [0x00, 0x00] = .ok (.halt, []) ∧
  decodeBytes [0x01, 0x00, 0x01, 0x00, 0x02, 0x00, 0x00, 0x00] = .ok (.add 1 2 0, []) ∧
  decodeBytes [0x02, 0x00, 0x01, 0x00, 0x02, 0x00, 0x03, 0x00] = .ok (.cmp 1 2 3, []) ∧
  decodeBytes [0x03, 0x00, 0x00, 0x00] = .ok (.jmp 0, []) ∧
  decodeBytes [0x04, 0x00, 0x01, 0x00, 0x00, 0x00] = .ok (.jmpc 1 0, []) ∧
  decodeBytes [0x05, 0x00, 0x07, 0x00, 0x09, 0x00] = .ok (.mov 7 9, []) ∧
  decodeBytes [0x06, 0x00, 0x05, 0x00, 0x00, 0x00] = .ok (.set 5 0, [])

/-- Decode and encode agree, both ways, at every value of every operand: bytes decode to an instruction and a rest exactly
when they are the instruction's image bytes and then the rest (R46, R50, R53; the byte order of R62 is D9, log entry 15). -/
def Obligations.BytesDecodeExactlyToWhatTheyEncode : Prop :=
  ∀ (i : Instr) (bs rest : List Byte), decodeBytes bs = .ok (i, rest) ↔ bs = encodeBytes i ++ rest

/-- R46: the instruction fetched at the pc is one opcode Word and then its operand Words in consecutive cells of Memory, 1 to
4 Words in all. -/
def Obligations.FetchedInstructionIsTheConsecutiveWordsAtThePc : Prop :=
  ∀ (s : State) (i : Instr), (fetch s).2 = .ok i →
    s.pc.toInt + (i.opcode.arity : Int) ≤ 255 ∧
    s.mem.read s.pc.toNat (1 + i.opcode.arity) = i.opcode.word :: i.operands ∧
    (∀ k, i.operands[k]? = if k < i.opcode.arity then some (s.mem.readWord (s.pc.toNat + 1 + k)) else none) ∧
    (i.length = 1 ∨ i.length = 2 ∨ i.length = 3 ∨ i.length = 4)

/-- A register-index operand names `x[i]` by its whole signed value in 0..255 and is never masked, and `regWord i`, the form
the instruction statements use, is the one Word that names it (R52; that any other value
names none is D6, log entry 11). -/
def Obligations.RegisterOperandNamesExactlyOneRegister : Prop :=
  ∀ w : Word,
    (∀ i : Fin 256, regIndex? w = some i ↔ w.toInt = (i.val : Int)) ∧
    (∀ i : Fin 256, w.toInt = (i.val : Int) ↔ w = regWord i) ∧
    (regIndex? w = none ↔ w.toInt < 0 ∨ 256 ≤ w.toInt)

/-! ### The step -/

/-- A step runs the decoded instruction: when the Words at an in-range pc decode to `i`, the step is `i` on the state after
the fetch's `Trace` event (R65, R70, R72; the event is D12, log entry 13). -/
def Obligations.StepRunsTheDecodedInstruction : Prop :=
  ∀ (s : State) (i : Instr) (rest : List Word), s.runState = .running → PcInRange s.pc →
    decodeWords (s.mem.read s.pc.toNat (min 4 (256 - s.pc.toNat))) = .ok (i, rest) →
    step s = exec i (s.emit (.trace i.opcode.word))

/-- An instruction whose Words, operands included, stand in Memory at the pc is the one the step runs (R46, R65, R72; the
`Trace` event is D12, log entry 13). -/
def Obligations.EncodedInstructionAtThePcRuns : Prop :=
  ∀ (s : State) (i : Instr), s.runState = .running → 0 ≤ s.pc.toInt → s.pc.toInt + (i.opcode.arity : Int) ≤ 255 →
    s.mem.read s.pc.toNat i.length = encode i →
    step s = exec i (s.emit (.trace i.opcode.word))

/-- What `State.withFetchWord` is for (log entry 3): at a pc whose next three cells exist, the step fetches the first
instruction of the Words stored there. -/
def Obligations.StoredTableWordIsTheNextInstructionRun : Prop :=
  ∀ (s : State) (nbits w : Nat) (i : Instr), s.mem.wf → s.runState = .running → 0 ≤ s.pc.toInt → s.pc.toInt ≤ 252 →
    decodeTableWord nbits w = some i →
    step (s.withFetchWord nbits w) = exec i ((s.withFetchWord nbits w).emit (.trace i.opcode.word))

/-- The events of a fetch (R65, R66): `Trace(op)` at every fetch, then `BadOpcode(op)` exactly if the opcode is negative or
above 6; no fetch, so no `Trace`, when the pc is out of range. Where events are emitted is D12 (log entry 13). -/
def Obligations.FetchEmitsTraceAndThenBadOpcodeIfOutOfRange : Prop :=
  ∀ s t : State, step s = .next t →
    (PcInRange s.pc → ((s.mem.readWord s.pc.toNat).toInt < 0 ∨ 6 < (s.mem.readWord s.pc.toNat).toInt) →
      s.out ++ [.trace (s.mem.readWord s.pc.toNat), .badOpcode (s.mem.readWord s.pc.toNat)] <+: t.out) ∧
    (PcInRange s.pc → 0 ≤ (s.mem.readWord s.pc.toNat).toInt → (s.mem.readWord s.pc.toNat).toInt ≤ 6 →
      ∃ es, t.out = s.out ++ .trace (s.mem.readWord s.pc.toNat) :: es ∧ ∀ op, Event.badOpcode op ∉ es) ∧
    (¬ PcInRange s.pc → ∃ e, t.out = s.out ++ [e] ∧ ∀ op, e ≠ Event.trace op)

/-- R67: opcode 0 halts at every index of Memory, 255 included: `run_state` Halted, `HaltedAt(cycles)` the last event, and no
register, not `pc`, not `cycles` changes. -/
def Obligations.ZeroOpcodeHaltsAtAnyIndex : Prop :=
  ∀ s : State, s.runState = .running → PcInRange s.pc → s.mem.readWord s.pc.toNat = 0x0000#16 →
    ∃ es, step s = .next { s with runState := .halted, out := s.out ++ es ++ [.haltedAt s.cycles] }

/-- R55: an opcode Word outside 0..6 has two effects in this order, the `BadOpcode` event and then the abort with cause
UNFOUND_INSTRUCTION; no register and no pc changes. -/
def Obligations.IllegalOpcodeWarnsAndAborts : Prop :=
  ∀ s : State, s.runState = .running → PcInRange s.pc →
    ((s.mem.readWord s.pc.toNat).toInt < 0 ∨ 6 < (s.mem.readWord s.pc.toNat).toInt) →
    ∃ es, step s = .next { s with
      runState := .aborted
      abortCause := some .unfoundInstruction
      out := s.out ++ es ++ [.badOpcode (s.mem.readWord s.pc.toNat), .abortedAt .unfoundInstruction s.cycles] }

/-- R69: a defined instruction other than HALT aborts with cause OPERANDS_OUT_OF_BOUNDS exactly when `pc + 1 + arity >= 256`,
whatever its operand Words are; HALT is not subject to this check and halts at any index. -/
def Obligations.OperandBoundAbortsExactlyByTheFormula : Prop :=
  ∀ (s : State) (o : Opcode), s.runState = .running → PcInRange s.pc → s.mem.readWord s.pc.toNat = o.word →
    (o ≠ .halt →
      (256 ≤ s.pc.toInt + 1 + (o.arity : Int) ↔
        ∃ es, step s = .next { s with
          runState := .aborted
          abortCause := some .operandsOutOfBounds
          out := s.out ++ es ++ [.abortedAt .operandsOutOfBounds s.cycles] })) ∧
    (o = .halt → ∃ t, step s = .next t ∧ t.runState = .halted)

/-- A pc outside 0..255 at the start of a step aborts with cause PC_OUT_OF_RANGE before anything else, and nothing but the
status and the terminal event changes (R64, R100). The check is D5 and its place D19 (log entries 10 and 14). -/
def Obligations.OutOfRangePcAbortsBeforeTheFetch : Prop :=
  ∀ s : State, s.runState = .running → (s.pc.toInt < 0 ∨ 256 ≤ s.pc.toInt) →
    step s = .next { s with
      runState := .aborted
      abortCause := some .pcOutOfRange
      out := s.out ++ [.abortedAt .pcOutOfRange s.cycles] }

/-- The priority of a step's outcomes (R106): pc out of range, halt, unfound instruction, operand bound, register index, and
then completion. The two added checks are D5 and D6, their places D19 (log entries 10, 11 and 14). -/
def Obligations.FirstApplicableOutcomeInStageOrderDecides : Prop :=
  ∀ s t : State, step s = .next t →
    (¬ PcInRange s.pc → t.runState = .aborted ∧ t.abortCause = some .pcOutOfRange) ∧
    (PcInRange s.pc → s.mem.readWord s.pc.toNat = Opcode.halt.word →
      t.runState = .halted ∧ t.abortCause = s.abortCause) ∧
    (PcInRange s.pc → (∀ o : Opcode, s.mem.readWord s.pc.toNat ≠ o.word) →
      t.runState = .aborted ∧ t.abortCause = some .unfoundInstruction) ∧
    (∀ i : Instr, PcInRange s.pc → s.mem.readWord s.pc.toNat = i.opcode.word → i ≠ .halt →
      (256 ≤ s.pc.toInt + 1 + (i.opcode.arity : Int) →
        t.runState = .aborted ∧ t.abortCause = some .operandsOutOfBounds) ∧
      (s.pc.toInt + 1 + (i.opcode.arity : Int) < 256 → s.mem.read (s.pc.toNat + 1) i.opcode.arity = i.operands →
        (¬ i.WellFormed → t.runState = .aborted ∧ t.abortCause = some .regIndexOutOfRange) ∧
        (i.WellFormed → t.runState = .running ∧ t.abortCause = s.abortCause)))

/-- A step is atomic (R76, R105, derived by the spec from R75): it completes, counting one cycle and changing at most one
register, or it ends in Halted or Aborted with the registers, the pc and the count unchanged. -/
def Obligations.StepCompletesWholeOrLeavesNoEffect : Prop :=
  ∀ s t : State, step s = .next t →
    s.runState = .running ∧ t.mem = s.mem ∧
    ((t.runState = .running ∧ t.cycles = s.cycles + 1 ∧ t.abortCause = s.abortCause ∧
        ∃ i, ∀ j, j ≠ i → t.readReg j = s.readReg j) ∨
      ((t.runState = .halted ∨ t.runState = .aborted) ∧ t.regs = s.regs ∧ t.pc = s.pc ∧ t.cycles = s.cycles))

/-- R74: the cycle counter goes up by exactly one in a step that completes, and not at all in one that halts or aborts. -/
def Obligations.CyclesCountCompletedStepsOnly : Prop :=
  ∀ s t : State, step s = .next t →
    (t.runState = .running → t.cycles = s.cycles + 1) ∧ (t.runState ≠ .running → t.cycles = s.cycles)

/-- A step exists exactly from Running (R63, R78, R111): from Halted and Aborted the model stops with a fault of its own
name (its choice, log entry 2), and from Running every state has a next one; nothing is refused. -/
def Obligations.StepExistsExactlyWhileRunning : Prop :=
  ∀ s : State,
    (s.runState = .halted → step s = .fault .engineHalted) ∧
    (s.runState = .aborted → step s = .fault .engineAborted) ∧
    (s.runState = .running → ∃ t, step s = .next t)

/-- R104: `raise Abort(cause)` sets the run state and the cause, emits `AbortedAt(cause, cycles)`, and changes nothing else. -/
def Obligations.RaiseAbortChangesStatusAndOutputOnly : Prop :=
  ∀ (s : State) (cause : AbortCause),
    (s.raiseAbort cause).runState = .aborted ∧ (s.raiseAbort cause).abortCause = some cause ∧
    (s.raiseAbort cause).out = s.out ++ [.abortedAt cause s.cycles] ∧ (s.raiseAbort cause).regs = s.regs ∧
    (s.raiseAbort cause).pc = s.pc ∧ (s.raiseAbort cause).cycles = s.cycles ∧ (s.raiseAbort cause).mem = s.mem

/-- A sequential advance never leaves Memory (R21, R79 (b), derived by the spec from R20 and R69): after a completed ADD, CMP,
MOV, SET or a JMPC not taken, the pc has grown by `1 + arity` and is in 3..255. -/
def Obligations.SequentialAdvanceStaysInMemory : Prop :=
  ∀ (s t : State) (i : Instr), step s = .next t → (fetch s).2 = .ok i → t.runState = .running →
    ((destination? i).isSome ∨
      ∃ target condition, i = .jmpc target (regWord condition) ∧ s.readReg condition = 0x0000#16) →
    t.pc.toInt = s.pc.toInt + (i.length : Int) ∧ 3 ≤ t.pc.toInt ∧ t.pc.toInt ≤ 255

/-- A step never reads the output stream (R26; that the stream is optional is D12, log entry 13): it appends the same events
to any stream and is otherwise the same. -/
def Obligations.OutputStreamIsOnlyAppendedTo : Prop :=
  ∀ (s t : State) (out : List Event), step s = .next t →
    ∃ es, t.out = s.out ++ es ∧ step { s with out := out } = .next { t with out := out ++ es }

/-- What a step does to Memory, registers, pc and run state is a function of those four (R76, R114, R139, derived by the
spec): the cycle count, the abort cause and the output stream have no influence on them. -/
def Obligations.StepDependsOnMemoryRegistersAndPcAlone : Prop :=
  ∀ s s' t : State, s.mem = s'.mem → s.regs = s'.regs → s.pc = s'.pc → s.runState = s'.runState → step s = .next t →
    ∃ t', step s' = .next t' ∧ t'.mem = t.mem ∧ t'.regs = t.regs ∧ t'.pc = t.pc ∧ t'.runState = t.runState

/-- Only the instruction's own Words matter (R32, R37, R49): a Memory that agrees with `M` on the opcode Word at the pc and on
its operand Words gives the same step. -/
def Obligations.NoWordBeyondTheInstructionInfluencesTheStep : Prop :=
  ∀ (s t : State) (m : Memory), step s = .next t →
    m.readWord s.pc.toNat = s.mem.readWord s.pc.toNat →
    (∀ o : Opcode, s.mem.readWord s.pc.toNat = o.word →
      m.read (s.pc.toNat + 1) o.arity = s.mem.read (s.pc.toNat + 1) o.arity) →
    step { s with mem := m } = .next { t with mem := m }

/-! ### The instructions -/

/-- ADD completes (R81): `x[to]` is the sum of `x[from]` and the immediate reduced to 16 bits, the pc grows by 4, one cycle
is counted, all else is unchanged. The wrap is D1 (log entry 7). -/
def Obligations.AddWritesTheWrappedSum : Prop :=
  ∀ (s : State) (src dst : Fin 256) (value : Word), Executable .add s →
    ∃ t, exec (.add (regWord src) value (regWord dst)) s = .next t ∧
      (t.readReg dst).toInt % 65536 = ((s.readReg src).toInt + value.toInt) % 65536 ∧
      t.pc.toInt = s.pc.toInt + 4 ∧ t.cycles = s.cycles + 1 ∧ UnchangedBut (some dst) s t

/-- CMP completes (R82): `x[to]` is -1, 0 or 1 as `x[left]` is less than, equal to or greater than `x[right]`, signed; the pc
grows by 4, one cycle is counted, all else is unchanged. The encoding and the signedness are D2 (log entry 8). -/
def Obligations.CmpWritesTheSignedComparison : Prop :=
  ∀ (s : State) (left right dst : Fin 256), Executable .cmp s →
    ∃ t, exec (.cmp (regWord left) (regWord right) (regWord dst)) s = .next t ∧
      ((s.readReg left).toInt < (s.readReg right).toInt → (t.readReg dst).toInt = -1) ∧
      ((s.readReg left).toInt = (s.readReg right).toInt → (t.readReg dst).toInt = 0) ∧
      ((s.readReg right).toInt < (s.readReg left).toInt → (t.readReg dst).toInt = 1) ∧
      t.pc.toInt = s.pc.toInt + 4 ∧ t.cycles = s.cycles + 1 ∧ UnchangedBut (some dst) s t

/-- MOV completes (R83): `x[to]` is `x[from]`, the pc grows by 3, one cycle is counted, all else is unchanged. -/
def Obligations.MovCopiesTheRegister : Prop :=
  ∀ (s : State) (src dst : Fin 256), Executable .mov s →
    ∃ t, exec (.mov (regWord src) (regWord dst)) s = .next t ∧ t.readReg dst = s.readReg src ∧
      t.pc.toInt = s.pc.toInt + 3 ∧ t.cycles = s.cycles + 1 ∧ UnchangedBut (some dst) s t

/-- SET completes (R84): `x[to]` is the immediate, any of the 65536 Words (R51), the pc grows by 3, one cycle is counted, all
else is unchanged. -/
def Obligations.SetLoadsTheImmediate : Prop :=
  ∀ (s : State) (value : Word) (dst : Fin 256), Executable .set s →
    ∃ t, exec (.set value (regWord dst)) s = .next t ∧ t.readReg dst = value ∧
      t.pc.toInt = s.pc.toInt + 3 ∧ t.cycles = s.cycles + 1 ∧ UnchangedBut (some dst) s t

/-- JMP completes (R89) for every value of the register, in range or not: the pc is that value exactly, one cycle is counted,
all else is unchanged. That nothing is added to the target is D3 (log entry 9). -/
def Obligations.JmpLandsExactlyOnTheRegisterValue : Prop :=
  ∀ (s : State) (target : Fin 256), Executable .jmp s →
    ∃ t, exec (.jmp (regWord target)) s = .next t ∧ t.pc = s.readReg target ∧ t.cycles = s.cycles + 1 ∧
      UnchangedBut none s t

/-- JMPC completes (R90): with any nonzero condition the pc is the target register's value exactly (D3, log entry 9), with 0
it falls through by 3 whatever the target register holds; one cycle is counted, all else is unchanged. -/
def Obligations.JmpcJumpsOnNonzeroAndElseFallsThrough : Prop :=
  ∀ (s : State) (target condition : Fin 256), Executable .jmpc s →
    ∃ t, exec (.jmpc (regWord target) (regWord condition)) s = .next t ∧
      ((s.readReg condition).toInt ≠ 0 → t.pc = s.readReg target) ∧
      ((s.readReg condition).toInt = 0 → t.pc.toInt = s.pc.toInt + 3) ∧ t.cycles = s.cycles + 1 ∧
      UnchangedBut none s t

/-- HALT completes (R91) in every state, with no check: `run_state` Halted, `HaltedAt(cycles)` emitted, and nothing else. -/
def Obligations.HaltStopsTheEngineAndNothingElse : Prop :=
  ∀ s : State, exec .halt s = .next { s with runState := .halted, out := s.out ++ [.haltedAt s.cycles] }

/-- Every instruction but HALT, at a pc where the operand-bound check fails, aborts with no effect, whatever its operands
(R81 to R84, R89, R90, each with R69). -/
def Obligations.InstructionTooCloseToTheEndAborts : Prop :=
  ∀ (i : Instr) (s : State), i ≠ .halt → 256 ≤ s.pc.toInt + 1 + (i.opcode.arity : Int) →
    exec i s = .next (s.raiseAbort .operandsOutOfBounds)

/-- An instruction that passes the operand-bound check and has a register index outside 0..255 aborts with no effect; every
register-index position counts, JMPC's target also when the jump would not be taken (R71, R101; D6, log entry 11). -/
def Obligations.IllFormedInstructionAbortsWithNoEffect : Prop :=
  ∀ (i : Instr) (s : State), ¬ i.WellFormed → s.pc.toInt + 1 + (i.opcode.arity : Int) < 256 →
    exec i s = .next (s.raiseAbort .regIndexOutOfRange)

/-- The frame of all seven instructions (R15, R22, R33, R85): every register but the destination, and every byte of Memory,
is unchanged; an instruction that leaves the engine Running leaves the abort cause and the output stream alone. -/
def Obligations.InstructionWritesAtMostItsDestinationRegister : Prop :=
  ∀ (i : Instr) (s t : State), exec i s = .next t →
    (∀ j : Fin 256, destination? i ≠ some (regWord j) → t.readReg j = s.readReg j) ∧
    (∀ a, t.mem.readByte a = s.mem.readByte a) ∧
    (t.runState = s.runState → s.runState = .running → t.abortCause = s.abortCause ∧ t.out = s.out)

/-- A taken jump, a JMP or a JMPC with a nonzero condition, to a value outside 0..255 completes and counts, and the next
step aborts with that value still in the pc (R89, R90, R93, R100). That the pc is the target's value exactly is D3 (log entry
9); the check is D5 (log entry 10). -/
def Obligations.OutOfRangeJumpCompletesAndTheNextStepAborts : Prop :=
  ∀ (s : State) (i : Instr) (target : Fin 256), s.runState = .running → (fetch s).2 = .ok i →
    (i = .jmp (regWord target) ∨
      ∃ condition : Fin 256, i = .jmpc (regWord target) (regWord condition) ∧ (s.readReg condition).toInt ≠ 0) →
    s.pc.toInt + 1 + (i.opcode.arity : Int) < 256 →
    ((s.readReg target).toInt < 0 ∨ 256 ≤ (s.readReg target).toInt) →
    ∃ t u, step s = .next t ∧ t.runState = .running ∧ t.pc = s.readReg target ∧ t.cycles = s.cycles + 1 ∧
      step t = .next u ∧ u.runState = .aborted ∧ u.abortCause = some .pcOutOfRange ∧ u.pc = s.readReg target ∧
      u.regs = s.regs ∧ u.cycles = s.cycles + 1

/-- The laws of ADD's sum (R86; the wrap is D1, log entry 7): it is the sum of the unsigned patterns with the carry out of
bit 15 discarded, 0 is neutral, and adding the negated value (-32768 is its own) restores the Word. -/
def Obligations.WrappedSumIsPatternAdditionAndCancels : Prop :=
  ∀ a b : Word,
    (addWords a b).toNat = (a.toNat + b.toNat) % 65536 ∧ addWords a 0x0000#16 = a ∧
    addWords (addWords a b) (BitVec.ofInt 16 (-b.toInt)) = a ∧ addWords (addWords a 0x8000#16) 0x8000#16 = a

/-- The laws of CMP's result (R87; the encoding is D2, log entry 8): it is -1, 0 or 1, it changes sign when the operands are
exchanged, and it is 0 exactly for equal patterns. -/
def Obligations.ComparisonIsATotalOrderTest : Prop :=
  ∀ a b : Word,
    ((compareWords a b).toInt = -1 ∨ (compareWords a b).toInt = 0 ∨ (compareWords a b).toInt = 1) ∧
    (compareWords a b).toInt = -(compareWords b a).toInt ∧ (compareWords a b = 0x0000#16 ↔ a = b)

/-! ### Invariants of a run -/

/-- The invariant of a run holds at reset. Its canonical form of Memory is the model's (log entry 1), and that `abort_cause`
exists and the output stream's events are D7 and D12 (log entries 12 and 13). -/
def Obligations.InvariantHoldsAtReset : Prop := RunInvariant State.reset

/-- The invariant of a run holds in the launch state of every image that loads. Its canonical form of Memory is the model's
(log entry 1), that `abort_cause` exists and the output stream's events are D7 and D12 (log entries 12 and 13), and the load
that gives the state is log entry 15 (D9, D10, D17). -/
def Obligations.InvariantHoldsAtEveryLaunch : Prop :=
  ∀ (image : List Byte) (s : State), State.launch image = .ok s → RunInvariant s

/-- Every step keeps the invariant, from every state that meets it: Memory stays canonical, `abort_cause` is set exactly in
Aborted, a halted pc indexes a 0 Word (R79 (d) to (f)), and the output stream is one `Trace` of an opcode in 1..6 for each
completed cycle and then the events of the end (R26, R57, R74). The canonical form of Memory is the model's (log entry 1), and
that `abort_cause` exists and the events are D7 and D12 (log entries 12 and 13). -/
def Obligations.EveryStepKeepsTheInvariant : Prop :=
  ∀ s t : State, RunInvariant s → step s = .next t → RunInvariant t

/-- The cycle counter equals the number of completed steps (R79 (c)) along every run of `n` steps from a Running state, and
only the last step of a run can be one that halts or aborts (R78). -/
def Obligations.RunOfStepsAddsItsLengthToTheCycleCount : Prop :=
  ∀ (n : Nat) (s t : State), s.runState = .running → Host.Core.run Sys2Proof.core n s = .next t →
    (t.runState = .running ∧ t.cycles = s.cycles + n) ∨ (t.runState ≠ .running ∧ t.cycles + 1 = s.cycles + n)
end

