-- ==== Sys2Proof/Laws/Decode.lean ====
section
/-! SUPPORT. The small lemmas of the decoder, the encoder and the image's byte order. -/

namespace Sys2Proof

/-- The opcode map read both ways: a Word selects an opcode exactly when it is that opcode's Word (30_encoding.md R53). -/
theorem opcode?_eq_some {w : Word} {o : Opcode} : opcode? w = some o ↔ w = o.word := by
  constructor
  · intro h
    have := List.find?_some h
    exact (beq_iff_eq.1 this).symm
  · rintro rfl
    cases o <;> decide

theorem opcode?_eq_none {w : Word} : opcode? w = none ↔ ∀ o : Opcode, w ≠ o.word := by
  constructor
  · intro h o hw
    rw [opcode?_eq_some.2 hw] at h
    exact absurd h (by simp)
  · intro h
    cases h' : opcode? w with
    | none => rfl
    | some o => exact absurd (opcode?_eq_some.1 h') (h o)

theorem word_injective {o p : Opcode} (h : o.word = p.word) : o = p := by
  have := opcode?_eq_some.2 h
  rw [opcode?_eq_some.2 rfl] at this
  exact Option.some.inj this

/-- The operand Words determine the operands and nothing is dropped (R46, R50). -/
theorem decodeOperands_eq_some {o : Opcode} {ws rest : List Word} {i : Instr} :
    decodeOperands o ws = some (i, rest) ↔ i.opcode = o ∧ ws = i.operands ++ rest := by
  constructor
  · intro h
    cases o <;> simp only [decodeOperands] at h <;> (try split at h) <;>
      simp only [Option.some.injEq, Prod.mk.injEq, reduceCtorEq] at h <;>
      obtain ⟨rfl, rfl⟩ := h <;> exact ⟨rfl, rfl⟩
  · rintro ⟨rfl, rfl⟩
    cases i <;> rfl

theorem length_operands (i : Instr) : i.operands.length = i.opcode.arity := by cases i <;> rfl

theorem length_encode (i : Instr) : (encode i).length = i.length := by
  simp [encode, Instr.length, length_operands, Nat.add_comm]

/-- Too few Words: the only way an operand read fails (R46). -/
theorem decodeOperands_eq_none {o : Opcode} {ws : List Word} :
    decodeOperands o ws = none ↔ ws.length < o.arity := by
  constructor
  · intro h
    cases o <;> simp only [decodeOperands, reduceCtorEq] at h <;>
      (rcases ws with _ | ⟨a, _ | ⟨b, _ | ⟨c, ws⟩⟩⟩ <;> simp_all [Opcode.arity])
  · intro h
    cases h' : decodeOperands o ws with
    | none => rfl
    | some r =>
      obtain ⟨rfl, hw⟩ := decodeOperands_eq_some.1 (h' : _ = some (r.1, r.2))
      rw [hw, List.length_append, length_operands] at h
      omega

/-- Inversion of the decoder: what each of its outcomes says of the Words. -/
theorem decodeWords_cases (ws : List Word) :
    (ws = [] ∧ decodeWords ws = .error .noOpcode) ∨
    (∃ op rest, ws = op :: rest ∧ opcode? op = none ∧ decodeWords ws = .error (.unfoundInstruction op)) ∨
    (∃ op rest o, ws = op :: rest ∧ opcode? op = some o ∧ rest.length < o.arity ∧
      decodeWords ws = .error (.truncated op)) ∨
    (∃ i rest, ws = encode i ++ rest ∧ decodeWords ws = .ok (i, rest)) := by
  cases ws with
  | nil => exact .inl ⟨rfl, rfl⟩
  | cons op ws =>
    refine .inr ?_
    cases ho : opcode? op with
    | none => exact .inl ⟨op, ws, rfl, ho, by simp only [decodeWords, ho]⟩
    | some o =>
      refine .inr ?_
      cases hd : decodeOperands o ws with
      | none => exact .inl ⟨op, ws, o, rfl, ho, decodeOperands_eq_none.1 hd, by simp only [decodeWords, ho, hd]⟩
      | some r =>
        obtain ⟨i, rest⟩ := r
        obtain ⟨rfl, rfl⟩ := decodeOperands_eq_some.1 hd
        refine .inr ⟨i, rest, ?_, by simp only [decodeWords, ho, hd]⟩
        rw [opcode?_eq_some.1 ho, encode, List.cons_append]

/-- The Words of an instruction decode to it, whatever Words follow. -/
theorem decodeWords_encode (i : Instr) (rest : List Word) : decodeWords (encode i ++ rest) = .ok (i, rest) := by
  simp only [encode, List.cons_append, decodeWords, opcode?_eq_some.2 rfl, decodeOperands_eq_some.2 ⟨rfl, rfl⟩]

/-- An instruction is known by its opcode and its operand Words. -/
theorem instr_ext {i j : Instr} (ho : i.opcode = j.opcode) (hw : i.operands = j.operands) : i = j := by
  have he : encode i = encode j := by simp only [encode, ho, hw]
  have hi := decodeWords_encode i []
  rw [he, decodeWords_encode] at hi
  injection hi with hi
  exact (Prod.mk.inj hi).1.symm

theorem wordOfBytes_low_high (w : Word) : wordOfBytes (lowByte w) (highByte w) = w := by
  have := w.isLt
  apply BitVec.eq_of_toNat_eq
  simp only [wordOfBytes, lowByte, highByte, BitVec.toNat_ofNat]
  omega

theorem lowByte_wordOfBytes (lo hi : Byte) : lowByte (wordOfBytes lo hi) = lo := by
  have := lo.isLt
  have := hi.isLt
  apply BitVec.eq_of_toNat_eq
  simp only [wordOfBytes, lowByte, BitVec.toNat_ofNat]
  omega

theorem highByte_wordOfBytes (lo hi : Byte) : highByte (wordOfBytes lo hi) = hi := by
  have := lo.isLt
  have := hi.isLt
  apply BitVec.eq_of_toNat_eq
  simp only [wordOfBytes, highByte, BitVec.toNat_ofNat]
  omega

theorem length_bytesOfWords (ws : List Word) : (bytesOfWords ws).length = Config.wordBytes * ws.length := by
  induction ws with
  | nil => rfl
  | cons w ws ih =>
    simp only [bytesOfWords, List.length_cons, ih, Config.wordBytes]
    omega

theorem wordsOfBytes_bytesOfWords_append (ws : List Word) (bs : List Byte) :
    wordsOfBytes (bytesOfWords ws ++ bs) = ws ++ wordsOfBytes bs := by
  induction ws with
  | nil => rfl
  | cons w ws ih => simp only [bytesOfWords, List.cons_append, wordsOfBytes, wordOfBytes_low_high, ih]

end Sys2Proof
end

