-- ==== Sys2Proof/Laws/Memory.lean ====
section
/-! SUPPORT. The canonical form of Memory: every memory operation keeps it, reset has it, and a byte write is seen by the
read of the same byte alone. -/

namespace Sys2Proof.Machine

theorem Memory.wf_nil : Memory.wf [] := by simp [Memory.wf]

theorem reset_mem_wf : State.reset.mem.wf := Memory.wf_nil

theorem Memory.wf_tail {c : Host.Cell} {m : Memory} (h : Memory.wf (c :: m)) : Memory.wf m :=
  ⟨(List.pairwise_cons.1 h.1).2, fun d hd => h.2 d (List.mem_cons_of_mem _ hd)⟩

/-- A byte below every listed address reads as unlisted. -/
theorem Memory.readByte_of_lt {m : Memory} {a : Nat} (h : ∀ c ∈ m, a < c.1) : m.readByte a = Memory.unlisted := by
  induction m with
  | nil => rfl
  | cons c m ih =>
    have hc := h c List.mem_cons_self
    rw [Memory.readByte, if_neg (by omega)]
    exact ih fun d hd => h d (List.mem_cons_of_mem _ hd)

/-- What a byte write can list: the cells before it, and the one written. -/
theorem Memory.mem_writeByte {m : Memory} {a : Nat} {b : Byte} {c : Host.Cell} (h : c ∈ m.writeByte a b) :
    c ∈ m ∨ (c = (a, b) ∧ b ≠ Memory.unlisted) := by
  induction m with
  | nil =>
    simp only [Memory.writeByte] at h
    split at h
    · simp at h
    · simp_all
  | cons d m ih =>
    simp only [Memory.writeByte] at h
    split_ifs at h <;> simp only [List.mem_cons] at h ⊢ <;> tauto

theorem Memory.writeByte_wf {m : Memory} {a : Nat} {b : Byte} (h : m.wf)
    (ha : a < Config.wordBytes * Config.memSpace) : (m.writeByte a b).wf := by
  refine ⟨?_, fun c hc => ?_⟩
  · induction m with
    | nil => rw [Memory.writeByte]; split <;> simp
    | cons d m ih =>
      obtain ⟨hd, hm⟩ := List.pairwise_cons.1 h.1
      have ih := ih (Memory.wf_tail h)
      simp only [Memory.writeByte]
      split_ifs with h1 hb h2 hb
      · exact h.1
      · refine List.pairwise_cons.2 ⟨fun c hc => ?_, h.1⟩
        rcases List.mem_cons.1 hc with rfl | hc
        · exact h1
        · exact Nat.lt_trans h1 (hd c hc)
      · exact hm
      · exact List.pairwise_cons.2 ⟨fun c hc => by simpa [h2] using hd c hc, hm⟩
      · refine List.pairwise_cons.2 ⟨fun c hc => ?_, ih⟩
        rcases Memory.mem_writeByte hc with hc | ⟨rfl, -⟩
        · exact hd c hc
        · simp only; omega
  · rcases Memory.mem_writeByte hc with hc | ⟨rfl, hb⟩
    · exact h.2 c hc
    · exact ⟨hb, ha⟩

/-- A byte read after a byte write: the byte written, or what was there. -/
theorem Memory.readByte_writeByte {m : Memory} (h : m.wf) (a : Nat) (b : Byte) (x : Nat) :
    (m.writeByte a b).readByte x = if x = a then b else m.readByte x := by
  induction m with
  | nil =>
    simp only [Memory.writeByte]
    split_ifs <;> simp_all [Memory.readByte, eq_comm]
  | cons d m ih =>
    have hd := (List.pairwise_cons.1 h.1).1
    have ih := ih (Memory.wf_tail h)
    have hlt : ∀ y, y ≤ d.1 → Memory.readByte m y = Memory.unlisted := fun y hy =>
      Memory.readByte_of_lt fun c hc => Nat.lt_of_le_of_lt hy (hd c hc)
    simp only [Memory.writeByte]
    by_cases h1 : a < d.1
    · by_cases hb : b = Memory.unlisted
      · by_cases hx : x = a
        · simp [h1, hb, hx, Memory.readByte, hlt a (by omega), Nat.ne_of_gt h1]
        · simp [h1, hb, hx]
      · simp only [if_pos h1, if_neg hb, Memory.readByte, eq_comm]
    · by_cases h2 : a = d.1
      · by_cases hx : x = d.1
        · by_cases hb : b = Memory.unlisted
          · simp [h2, hb, hx, hlt d.1 (by omega)]
          · simp [h2, hb, hx, Memory.readByte]
        · by_cases hb : b = Memory.unlisted <;> simp [h2, hb, hx, Memory.readByte, Ne.symm hx]
      · simp only [if_neg h1, if_neg h2, Memory.readByte, ih]
        by_cases hx : d.1 = x
        · simp [hx, show ¬ x = a by omega]
        · simp [hx]

theorem Memory.writeWord_wf {m : Memory} {k : Nat} {w : Word} (h : m.wf) (hk : k < Config.memSpace) :
    (m.writeWord k w).wf := by
  simp only [Config.memSpace] at hk
  refine Memory.writeByte_wf (Memory.writeByte_wf h ?_) ?_ <;> simp only [Config.wordBytes, Config.memSpace] <;> omega

theorem Memory.write_wf {m : Memory} {addr : Nat} {ws : List Word} (h : m.wf)
    (hk : addr + ws.length ≤ Config.memSpace) : (m.write addr ws).wf := by
  induction ws generalizing m addr with
  | nil => exact h
  | cons w ws ih =>
    simp only [List.length_cons, Config.memSpace] at hk
    refine ih (Memory.writeWord_wf h ?_) ?_ <;> simp only [Config.memSpace] <;> omega

/-- Reading leaves no trace, and a read of `n` Words gives `n` of them. -/
@[simp] theorem Memory.length_read (m : Memory) (addr n : Nat) : (m.read addr n).length = n := by
  simp [Memory.read]

theorem Memory.read_succ (m : Memory) (addr n : Nat) :
    m.read addr (n + 1) = m.readWord addr :: m.read (addr + 1) n := by
  simp [Memory.read, List.range'_succ]

theorem Memory.take_read (m : Memory) (addr n k : Nat) : (m.read addr n).take k = m.read addr (min k n) := by
  induction k generalizing addr n with
  | zero => simp [Memory.read]
  | succ k ih =>
    cases n with
    | zero => simp [Memory.read]
    | succ n => rw [Memory.read_succ, List.take_succ_cons, ih, Nat.succ_min_succ, Memory.read_succ]

end Sys2Proof.Machine
end

