-- ==== Sys2Proof/Laws/Operands.lean ====
section
/-! SUPPORT. What the operand checks can do: one lemma per shared operation. -/

namespace Sys2Proof.Machine

theorem wellFormed_iff {i : Instr} : i.WellFormed ↔ ∀ w ∈ i.regOperands, IsRegIndex w := by
  simp only [Instr.WellFormed, List.all_eq_true, decide_eq_true_eq]

/-- The Word of a register index has that index as its signed value. -/
@[simp] theorem regWord_toInt (i : Fin Config.numRegs) : (regWord i).toInt = (i.val : Int) := by
  have := i.isLt
  simp only [Config.numRegs] at this
  rw [regWord, BitVec.toInt_eq_toNat_cond, BitVec.toNat_ofNat]
  split <;> omega

@[simp] theorem regIndex?_regWord (i : Fin Config.numRegs) : regIndex? (regWord i) = some i := by
  have h : (i.val : Int) < Config.numRegs := Int.ofNat_lt.2 i.isLt
  simp [regIndex?]

theorem regIndex?_of_isRegIndex {w : Word} (h : IsRegIndex w) : ∃ i, regIndex? w = some i :=
  ⟨_, dif_pos h⟩

theorem regIndex?_of_not_isRegIndex {w : Word} (h : ¬ IsRegIndex w) : regIndex? w = none := dif_neg h

section withOperands
variable {o : Opcode} {s : State} {rest : Host.Outcome State Fault Refusal}

theorem withOperands_of_bound (h : OperandsOutOfBounds o s.pc) :
    withOperands o s rest = .next (s.raiseAbort .operandsOutOfBounds) := if_pos h

theorem withOperands_of_fit (h : ¬ OperandsOutOfBounds o s.pc) : withOperands o s rest = rest := if_neg h

end withOperands

section withReg
variable {w : RegOperand} {s : State} {rest : Fin Config.numRegs → Host.Outcome State Fault Refusal}

theorem withReg_of_some {i : Fin Config.numRegs} (h : regIndex? w = some i) : withReg w s rest = rest i := by
  simp [withReg, h]

theorem withReg_of_none (h : regIndex? w = none) :
    withReg w s rest = .next (s.raiseAbort .regIndexOutOfRange) := by
  simp [withReg, h]

@[simp] theorem withReg_regWord (i : Fin Config.numRegs) : withReg (regWord i) s rest = rest i :=
  withReg_of_some (regIndex?_regWord i)

end withReg

/-- After the operand-bound check the sequential next pc is the exact sum: it does not wrap (10_state.md R21). -/
theorem sequentialPc_toInt {o : Opcode} {s : State} (hpc : 0 ≤ s.pc.toInt) (h : ¬ OperandsOutOfBounds o s.pc) :
    (sequentialPc o s).toInt = s.pc.toInt + (o.arity : Int) + 1 := by
  simp only [OperandsOutOfBounds, Config.memSpace] at h
  rw [sequentialPc, BitVec.toInt_ofInt]
  exact Int.bmod_eq_of_le (by omega) (by omega)

end Sys2Proof.Machine
end

