-- ==== Sys2Proof/Laws/PerInstr.lean ====
section
/-! SUPPORT. Statements for all instructions, one lemma per constructor. -/

/-- The Words of the instruction decode to it and leave the Words after it (30_encoding.md R46, R50, R53). -/
def Sys2Proof.Laws.DecodeEncode.Statement (i : Sys2Proof.Instr) : Prop :=
  ∀ rest, Sys2Proof.decodeWords (Sys2Proof.encode i ++ rest) = .ok (i, rest)

namespace Sys2Proof.Laws.DecodeEncode

theorem halt : Statement .halt := decodeWords_encode _

theorem add (src : RegOperand) (value : Immediate) (dst : RegOperand) : Statement (.add src value dst) :=
  decodeWords_encode _

theorem cmp (left right dst : RegOperand) : Statement (.cmp left right dst) := decodeWords_encode _

theorem jmp (target : RegOperand) : Statement (.jmp target) := decodeWords_encode _

theorem jmpc (target condition : RegOperand) : Statement (.jmpc target condition) := decodeWords_encode _

theorem mov (src dst : RegOperand) : Statement (.mov src dst) := decodeWords_encode _

theorem set (value : Immediate) (dst : RegOperand) : Statement (.set value dst) := decodeWords_encode _

end Sys2Proof.Laws.DecodeEncode
end

