-- ==== Sys2Proof/Laws/State.lean ====
section
/-! SUPPORT. One lemma per field per update of State, and reading a register after writing one. -/

namespace Sys2Proof.Machine

@[simp] theorem RegFile.get_set_self (r : RegFile) (i : Fin Config.numRegs) (v : Word) : (r.set i v).get i = v := by
  simp [RegFile.get, RegFile.set]

theorem RegFile.get_set_ne (r : RegFile) {i j : Fin Config.numRegs} (h : j ≠ i) (v : Word) :
    (r.set i v).get j = r.get j := by
  simp [RegFile.get, RegFile.set, Fin.val_ne_of_ne h.symm]

section writeReg
variable (s : State) (i : Fin Config.numRegs) (v : Word)

@[simp] theorem writeReg_regs : (s.writeReg i v).regs = s.regs.set i v := rfl
@[simp] theorem writeReg_pc : (s.writeReg i v).pc = s.pc := rfl
@[simp] theorem writeReg_runState : (s.writeReg i v).runState = s.runState := rfl
@[simp] theorem writeReg_cycles : (s.writeReg i v).cycles = s.cycles := rfl
@[simp] theorem writeReg_abortCause : (s.writeReg i v).abortCause = s.abortCause := rfl
@[simp] theorem writeReg_out : (s.writeReg i v).out = s.out := rfl
@[simp] theorem writeReg_mem : (s.writeReg i v).mem = s.mem := rfl
@[simp] theorem readReg_writeReg_self : (s.writeReg i v).readReg i = v := RegFile.get_set_self ..

theorem readReg_writeReg_ne {j : Fin Config.numRegs} (h : j ≠ i) : (s.writeReg i v).readReg j = s.readReg j :=
  RegFile.get_set_ne _ h v

end writeReg

section emit
variable (s : State) (e : Event)

@[simp] theorem emit_regs : (s.emit e).regs = s.regs := rfl
@[simp] theorem emit_pc : (s.emit e).pc = s.pc := rfl
@[simp] theorem emit_runState : (s.emit e).runState = s.runState := rfl
@[simp] theorem emit_cycles : (s.emit e).cycles = s.cycles := rfl
@[simp] theorem emit_abortCause : (s.emit e).abortCause = s.abortCause := rfl
@[simp] theorem emit_out : (s.emit e).out = s.out ++ [e] := rfl
@[simp] theorem emit_mem : (s.emit e).mem = s.mem := rfl
@[simp] theorem emit_readReg (i : Fin Config.numRegs) : (s.emit e).readReg i = s.readReg i := rfl

end emit

section halt
variable (s : State)

@[simp] theorem halt_regs : s.halt.regs = s.regs := rfl
@[simp] theorem halt_pc : s.halt.pc = s.pc := rfl
@[simp] theorem halt_runState : s.halt.runState = .halted := rfl
@[simp] theorem halt_cycles : s.halt.cycles = s.cycles := rfl
@[simp] theorem halt_abortCause : s.halt.abortCause = s.abortCause := rfl
@[simp] theorem halt_out : s.halt.out = s.out ++ [.haltedAt s.cycles] := rfl
@[simp] theorem halt_mem : s.halt.mem = s.mem := rfl
@[simp] theorem halt_readReg (i : Fin Config.numRegs) : s.halt.readReg i = s.readReg i := rfl

end halt

section raiseAbort
variable (s : State) (c : AbortCause)

@[simp] theorem raiseAbort_regs : (s.raiseAbort c).regs = s.regs := rfl
@[simp] theorem raiseAbort_pc : (s.raiseAbort c).pc = s.pc := rfl
@[simp] theorem raiseAbort_runState : (s.raiseAbort c).runState = .aborted := rfl
@[simp] theorem raiseAbort_cycles : (s.raiseAbort c).cycles = s.cycles := rfl
@[simp] theorem raiseAbort_abortCause : (s.raiseAbort c).abortCause = some c := rfl
@[simp] theorem raiseAbort_out : (s.raiseAbort c).out = s.out ++ [.abortedAt c s.cycles] := rfl
@[simp] theorem raiseAbort_mem : (s.raiseAbort c).mem = s.mem := rfl
@[simp] theorem raiseAbort_readReg (i : Fin Config.numRegs) : (s.raiseAbort c).readReg i = s.readReg i := rfl

end raiseAbort

section complete
variable (s : State) (p : Word)

@[simp] theorem complete_regs : (s.complete p).regs = s.regs := rfl
@[simp] theorem complete_pc : (s.complete p).pc = p := rfl
@[simp] theorem complete_runState : (s.complete p).runState = s.runState := rfl
@[simp] theorem complete_cycles : (s.complete p).cycles = s.cycles + 1 := rfl
@[simp] theorem complete_abortCause : (s.complete p).abortCause = s.abortCause := rfl
@[simp] theorem complete_out : (s.complete p).out = s.out := rfl
@[simp] theorem complete_mem : (s.complete p).mem = s.mem := rfl
@[simp] theorem complete_readReg (i : Fin Config.numRegs) : (s.complete p).readReg i = s.readReg i := rfl

end complete

end Sys2Proof.Machine
end

