-- ==== Sys2Proof/Laws/Step.lean ====
section
/-! SUPPORT. Inversion of the meanings, of the fetch and of the step: what each can do, said once. -/

namespace Sys2Proof.Machine

/-- Inversion of the register-index check: it aborts, or the rest runs with the register named. -/
theorem withReg_cases {w : RegOperand} {s t : State} {rest : Fin Config.numRegs → Host.Outcome State Fault Refusal}
    (h : withReg w s rest = .next t) :
    (regIndex? w = none ∧ t = s.raiseAbort .regIndexOutOfRange) ∨ ∃ i, regIndex? w = some i ∧ rest i = .next t := by
  cases hw : regIndex? w with
  | none => exact .inl ⟨rfl, by simpa [withReg, hw] using h.symm⟩
  | some i => exact .inr ⟨i, rfl, by simpa [withReg, hw] using h⟩

/-- Inversion of the operand-bound check: it aborts, or the rest runs. -/
theorem withOperands_cases {o : Opcode} {s t : State} {rest : Host.Outcome State Fault Refusal}
    (h : withOperands o s rest = .next t) :
    (OperandsOutOfBounds o s.pc ∧ t = s.raiseAbort .operandsOutOfBounds) ∨
      (¬ OperandsOutOfBounds o s.pc ∧ rest = .next t) := by
  by_cases hb : OperandsOutOfBounds o s.pc
  · exact .inl ⟨hb, by simpa [withOperands_of_bound hb] using h.symm⟩
  · exact .inr ⟨hb, by simpa [withOperands_of_fit hb] using h⟩

/-- What an instruction does to a state: the forms its next state can take. -/
inductive ExecResult (s : State) : State → Prop where
  /-- It halted the engine. -/
  | halted : ExecResult s s.halt
  /-- It aborted before its effect, by the operand-bound check. -/
  | bound : ExecResult s (s.raiseAbort .operandsOutOfBounds)
  /-- It aborted before its effect, by the register-index check. -/
  | index : ExecResult s (s.raiseAbort .regIndexOutOfRange)
  /-- It completed and wrote no register. -/
  | jumped (p : Word) : ExecResult s (s.complete p)
  /-- It completed and wrote one register. -/
  | wrote (i : Fin Config.numRegs) (v p : Word) : ExecResult s ((s.writeReg i v).complete p)

/-- Every instruction answers a next state of one of these forms (40_execution_engine.md R76; 60_exceptions.md R111). -/
theorem exec_result (i : Instr) (s : State) : ∃ t, exec i s = .next t ∧ ExecResult s t := by
  have reg : ∀ (w : RegOperand) (rest : Fin Config.numRegs → Host.Outcome State Fault Refusal),
      (∀ i, ∃ t, rest i = .next t ∧ ExecResult s t) → ∃ t, withReg w s rest = .next t ∧ ExecResult s t := by
    intro w rest h
    cases hw : regIndex? w with
    | none => exact ⟨_, withReg_of_none hw, .index⟩
    | some i => simpa only [withReg_of_some hw] using h i
  have ops : ∀ (o : Opcode) (rest : Host.Outcome State Fault Refusal),
      (∃ t, rest = .next t ∧ ExecResult s t) → ∃ t, withOperands o s rest = .next t ∧ ExecResult s t := by
    intro o rest h
    by_cases hb : OperandsOutOfBounds o s.pc
    · exact ⟨_, withOperands_of_bound hb, .bound⟩
    · simpa only [withOperands_of_fit hb] using h
  cases i with
  | halt => exact ⟨_, rfl, .halted⟩
  | add src value dst => exact ops _ _ <| reg _ _ fun f => reg _ _ fun t => ⟨_, rfl, .wrote ..⟩
  | cmp left right dst => exact ops _ _ <| reg _ _ fun l => reg _ _ fun r => reg _ _ fun t => ⟨_, rfl, .wrote ..⟩
  | jmp target => exact ops _ _ <| reg _ _ fun t => ⟨_, rfl, .jumped _⟩
  | jmpc target condition => exact ops _ _ <| reg _ _ fun t => reg _ _ fun c => ⟨_, rfl, .jumped _⟩
  | mov src dst => exact ops _ _ <| reg _ _ fun f => reg _ _ fun t => ⟨_, rfl, .wrote ..⟩
  | set value dst => exact ops _ _ <| reg _ _ fun t => ⟨_, rfl, .wrote ..⟩

theorem exec_cases {i : Instr} {s t : State} (h : exec i s = .next t) : ExecResult s t := by
  obtain ⟨u, hu, hr⟩ := exec_result i s
  rw [h] at hu
  injection hu with hu
  exact hu ▸ hr

section traceOpcode
variable (op : Word) (s : State)

@[simp] theorem traceOpcode_regs : (traceOpcode op s).regs = s.regs := by rw [traceOpcode]; split <;> rfl
@[simp] theorem traceOpcode_pc : (traceOpcode op s).pc = s.pc := by rw [traceOpcode]; split <;> rfl
@[simp] theorem traceOpcode_runState : (traceOpcode op s).runState = s.runState := by rw [traceOpcode]; split <;> rfl
@[simp] theorem traceOpcode_cycles : (traceOpcode op s).cycles = s.cycles := by rw [traceOpcode]; split <;> rfl
@[simp] theorem traceOpcode_abortCause : (traceOpcode op s).abortCause = s.abortCause := by
  rw [traceOpcode]; split <;> rfl
@[simp] theorem traceOpcode_mem : (traceOpcode op s).mem = s.mem := by rw [traceOpcode]; split <;> rfl
@[simp] theorem traceOpcode_readReg (i : Fin Config.numRegs) : (traceOpcode op s).readReg i = s.readReg i := by
  rw [traceOpcode]; split <;> rfl

theorem traceOpcode_out_of_bad (h : IsBadOpcode op) :
    (traceOpcode op s).out = s.out ++ [.trace op, .badOpcode op] := by simp [traceOpcode, if_pos h]

theorem traceOpcode_of_good (h : ¬ IsBadOpcode op) : traceOpcode op s = s.emit (.trace op) := if_neg h

end traceOpcode

/-- A step from Running is the fetch, then the instruction or the abort. -/
theorem step_running {s : State} (h : s.runState = .running) :
    step s = match fetch s with
      | (s', .ok i) => exec i s'
      | (s', .error cause) => .next (s'.raiseAbort cause) := by
  cases s
  cases h
  rfl

/-- The opcode range check fails exactly for the Words that dispatch does not find (30_encoding.md R57). -/
theorem isBadOpcode_iff {op : Word} : IsBadOpcode op ↔ opcode? op = none := by
  rw [opcode?_eq_none]
  constructor
  · rintro h o rfl
    cases o <;> revert h <;> decide
  · intro h
    by_contra hb
    simp only [IsBadOpcode, Config.maxOpcode, not_or, not_lt] at hb
    have hw : op = BitVec.ofInt 16 op.toInt := by simp
    generalize op.toInt = v at hb hw
    subst hw
    obtain rfl | rfl | rfl | rfl | rfl | rfl | rfl :
        v = 0 ∨ v = 1 ∨ v = 2 ∨ v = 3 ∨ v = 4 ∨ v = 5 ∨ v = 6 := by omega
    exacts [h .halt rfl, h .add rfl, h .cmp rfl, h .jmp rfl, h .jmpc rfl, h .mov rfl, h .set rfl]

theorem not_isBadOpcode_word (o : Opcode) : ¬ IsBadOpcode o.word := by cases o <;> decide

/-- An in-range pc indexes the cell of its signed value. -/
theorem pc_toNat {s : State} (h : PcInRange s.pc) : (s.pc.toNat : Int) = s.pc.toInt := by
  obtain ⟨h1, h2⟩ := h
  simp only [Config.memSpace] at h2
  rw [BitVec.toInt_eq_toNat_cond] at *
  have := s.pc.isLt
  split at * <;> omega

/-- At an in-range pc the decoder sees the opcode Word first, then the cells after it, up to three. -/
theorem fetchWords_of_inRange {s : State} (h : PcInRange s.pc) :
    fetchWords s = fetchOpcode s :: s.mem.read (s.pc.toNat + 1) (min 4 (256 - s.pc.toNat) - 1) := by
  have hn := pc_toNat h
  have h2 := h.2
  simp only [Config.memSpace] at h2
  rw [fetchWords, show min Config.longestInstr (Config.memSpace - s.pc.toNat)
    = (min 4 (256 - s.pc.toNat) - 1) + 1 by simp only [Config.longestInstr, Config.memSpace]; omega, Memory.read_succ]
  rfl

/-- The state after the fetch differs from the state before it in the output stream alone. -/
theorem fetch_state (s : State) :
    (fetch s).1 = s ∨ (PcInRange s.pc ∧ (fetch s).1 = traceOpcode (fetchOpcode s) s) := by
  by_cases h : PcInRange s.pc
  · exact .inr ⟨h, by simp only [fetch, if_pos h]⟩
  · exact .inl (by simp only [fetch, if_neg h])

/-- Inversion of the fetch: the pc is out of range; or the opcode is illegal; or the operand cells do not exist; or it gives
the instruction whose Words stand at the pc (40_execution_engine.md R64 to R70). -/
theorem fetch_cases (s : State) :
    (¬ PcInRange s.pc ∧ fetch s = (s, .error .pcOutOfRange)) ∨
    (PcInRange s.pc ∧ IsBadOpcode (fetchOpcode s) ∧
      fetch s = (traceOpcode (fetchOpcode s) s, .error .unfoundInstruction)) ∨
    (PcInRange s.pc ∧ (∃ o : Opcode, fetchOpcode s = o.word ∧ o ≠ .halt ∧ 256 ≤ s.pc.toInt + (o.arity : Int)) ∧
      fetch s = (s.emit (.trace (fetchOpcode s)), .error .operandsOutOfBounds)) ∨
    (PcInRange s.pc ∧ ∃ i : Instr, fetchOpcode s = i.opcode.word ∧ s.pc.toInt + (i.opcode.arity : Int) ≤ 255 ∧
      s.mem.read (s.pc.toNat + 1) i.opcode.arity = i.operands ∧
      fetch s = (s.emit (.trace (fetchOpcode s)), .ok i)) := by
  by_cases hp : PcInRange s.pc
  swap
  · exact .inl ⟨hp, by rw [fetch, if_neg hp]⟩
  refine .inr ?_
  have hf : fetch s = (traceOpcode (fetchOpcode s) s, match decodeWords (fetchWords s) with
      | .error e => .error (abortOfDecodeError e)
      | .ok (i, _) => .ok i) := if_pos hp
  have hw := fetchWords_of_inRange hp
  have hn := pc_toNat hp
  have h2 := hp.2
  simp only [Config.memSpace] at h2
  rcases decodeWords_cases (fetchWords s) with ⟨e, -⟩ | ⟨op, r, e, ho, hd⟩ | ⟨op, r, o, e, ho, hl, hd⟩ | ⟨i, r, e, hd⟩
  · rw [hw] at e
    cases e
  · rw [hw, List.cons.injEq] at e
    exact .inl ⟨hp, isBadOpcode_iff.2 (e.1 ▸ ho), by rw [hf, hd]; rfl⟩
  · rw [hw, List.cons.injEq] at e
    obtain ⟨e, er⟩ := e
    obtain rfl := opcode?_eq_some.1 ho
    have hlen := congrArg List.length er
    rw [Memory.length_read] at hlen
    have har : o.arity ≤ 3 := by cases o <;> decide
    refine .inr (.inl ⟨hp, ⟨o, e, ?_, by omega⟩, ?_⟩)
    · rintro rfl
      simp [Opcode.arity] at hl
    · rw [hf, hd, traceOpcode_of_good _ _ (e ▸ not_isBadOpcode_word o)]
      rfl
  · rw [hw, encode, List.cons_append, List.cons.injEq] at e
    obtain ⟨e, er⟩ := e
    have hlen := congrArg List.length er
    rw [Memory.length_read, List.length_append, length_operands] at hlen
    refine .inr (.inr ⟨hp, i, e, by omega, ?_, ?_⟩)
    · have := congrArg (List.take i.opcode.arity) er
      rwa [List.take_left' (length_operands i), Memory.take_read, Nat.min_eq_left (by omega)] at this
    · rw [hf, hd, traceOpcode_of_good _ _ (e ▸ not_isBadOpcode_word _)]

/-- The fetch gives the instruction whose Words, all of them inside Memory, stand at the pc. -/
theorem fetch_of_words {s : State} {i : Instr} (hp : PcInRange s.pc) (ho : fetchOpcode s = i.opcode.word)
    (hb : s.pc.toInt + (i.opcode.arity : Int) ≤ 255)
    (hw : s.mem.read (s.pc.toNat + 1) i.opcode.arity = i.operands) :
    fetch s = (s.emit (.trace i.opcode.word), .ok i) := by
  rcases fetch_cases s with ⟨h, -⟩ | ⟨-, h, -⟩ | ⟨-, ⟨o, h, -, h'⟩, -⟩ | ⟨-, j, h, -, h', e⟩
  · exact absurd hp h
  · exact absurd (ho ▸ h) (not_isBadOpcode_word _)
  · obtain rfl := word_injective (ho.symm.trans h)
    omega
  · have hij := word_injective (ho.symm.trans h)
    obtain rfl := instr_ext hij (by rw [← hw, ← h', hij])
    rw [e, ho]

theorem step_of_fetch_ok {s : State} {i : Instr} (hr : s.runState = .running) (h : (fetch s).2 = .ok i) :
    step s = exec i (fetch s).1 := by
  rw [step_running hr]
  generalize fetch s = f at h ⊢
  obtain ⟨u, r⟩ := f
  subst h
  rfl

theorem step_of_fetch_error {s : State} {c : AbortCause} (hr : s.runState = .running) (h : (fetch s).2 = .error c) :
    step s = .next ((fetch s).1.raiseAbort c) := by
  rw [step_running hr]
  generalize fetch s = f at h ⊢
  obtain ⟨u, r⟩ := f
  subst h
  rfl

/-- A step answers a next state exactly when the engine is Running, and that state is an instruction's or an abort's. -/
theorem step_cases {s t : State} (h : step s = .next t) :
    s.runState = .running ∧
      ((∃ i, (fetch s).2 = .ok i ∧ exec i (fetch s).1 = .next t) ∨
        (∃ c, (fetch s).2 = .error c ∧ t = (fetch s).1.raiseAbort c)) := by
  cases hr : s.runState with
  | halted => simp [step, hr] at h
  | aborted => simp [step, hr] at h
  | running =>
    rw [step_running hr] at h
    refine ⟨rfl, ?_⟩
    generalize fetch s = f at h ⊢
    obtain ⟨u, c | i⟩ := f
    · exact .inr ⟨c, rfl, by simpa using h.symm⟩
    · exact .inl ⟨i, rfl, h⟩

end Sys2Proof.Machine
end

