-- ==== Sys2Proof/Tests/Slice0.lean ====
section
/-! SUPPORT. Small tests on fixed values: each expected result is worked out in spec/95_test_vectors.md or in the rule named;
and for every statement with hypotheses a witness that meets them, clause by clause. -/

namespace Sys2Proof.Tests

open Sys2Proof Sys2Proof.Machine

/-- The reset state with Words loaded from cell `pc`, the pc there, and some registers set. -/
def start (pc : Word) (words : List Word) (xs : List (Fin 256 × Word)) : State :=
  { xs.foldl (fun s x => s.writeReg x.1 x.2) State.reset with pc := pc, mem := Memory.write [] pc.toNat words }

/-- One step answers a next state that passes a check. -/
def nextIs (s : State) (p : State → Bool) : Bool :=
  match step s with
  | .next t => p t
  | .fault _ => false
  | .refused _ => false

/-- A step aborts with the given cause, the pc where it was and no cycle counted. -/
def abortsWith (s : State) (c : AbortCause) : Bool :=
  nextIs s fun t => t.runState == .aborted && t.abortCause == some c && t.pc == s.pc && t.cycles == s.cycles

/-! ### Well-formedness: each register-index position is checked (R50, R52), an immediate is not (R51) -/

theorem test_wellFormed_add : (Instr.add 0 0xFFFF 255).WellFormed := by decide
theorem test_illFormed_add_src : ¬ (Instr.add 256 0 0).WellFormed := by decide
theorem test_illFormed_add_dst : ¬ (Instr.add 0 0 0xFFFF).WellFormed := by decide
theorem test_illFormed_cmp_left : ¬ (Instr.cmp 256 0 0).WellFormed := by decide
theorem test_illFormed_cmp_right : ¬ (Instr.cmp 0 0x8000 0).WellFormed := by decide
theorem test_illFormed_cmp_dst : ¬ (Instr.cmp 0 0 256).WellFormed := by decide
theorem test_illFormed_jmp : ¬ (Instr.jmp 256).WellFormed := by decide
theorem test_illFormed_jmpc_target : ¬ (Instr.jmpc 256 0).WellFormed := by decide
theorem test_illFormed_jmpc_condition : ¬ (Instr.jmpc 0 256).WellFormed := by decide
theorem test_illFormed_mov_src : ¬ (Instr.mov 0xFFFF 0).WellFormed := by decide
theorem test_illFormed_mov_dst : ¬ (Instr.mov 0 256).WellFormed := by decide
theorem test_illFormed_set_dst : ¬ (Instr.set 0 256).WellFormed := by decide
theorem test_wellFormed_set : (Instr.set 0x8000 255).WellFormed := by decide

/-! ### Decoding: the opcode Word's bits from spec/opcode_table.json, "encoding", then the operand Words of R50 -/

theorem test_decode_halt : decodeWords [0b0000000000000000] = .ok (.halt, []) := by decide
theorem test_decode_add : decodeWords [0b0000000000000001, 1, 2, 0] = .ok (.add 1 2 0, []) := by decide
theorem test_decode_cmp : decodeWords [0b0000000000000010, 1, 2, 3] = .ok (.cmp 1 2 3, []) := by decide
theorem test_decode_jmp : decodeWords [0b0000000000000011, 7] = .ok (.jmp 7, []) := by decide
theorem test_decode_jmpc : decodeWords [0b0000000000000100, 1, 0] = .ok (.jmpc 1 0, []) := by decide
theorem test_decode_mov : decodeWords [0b0000000000000101, 7, 9] = .ok (.mov 7 9, []) := by decide
theorem test_decode_set : decodeWords [0b0000000000000110, 3, 6] = .ok (.set 3 6, []) := by decide
/-- Vector E4: all 16 bits of the opcode Word are compared. -/
theorem test_decode_0101 : decodeWords [0x0101, 0, 0, 0] = .error (.unfoundInstruction 0x0101) := by decide
theorem test_decode_truncated : decodeWords [0x0001, 0, 0] = .error (.truncated 0x0001) := by decide
theorem test_decode_empty : decodeWords [] = .error .noOpcode := by decide
theorem test_decodeBytes_odd : decodeBytes [0x03, 0x00, 0x00] = .error (.truncated 0x0003) := by decide
/-- The bytes of R62's example. -/
theorem test_encodeBytes_set : encodeBytes (.set 5 0) = [0x06, 0x00, 0x05, 0x00, 0x00, 0x00] := by decide
/-- Word k of the table's numbering is bits 16k to 16k+15. -/
theorem test_decodeTableWord : decodeTableWord 64 0x0000FFFB00040001 = some (.add 4 0xFFFB 0) := by decide
theorem test_decodeTableWord_short : decodeTableWord 16 6 = some (.set 0 0) := by decide
theorem test_decodeTableWord_illegal : decodeTableWord 16 7 = none := by decide

/-! ### The instructions (95_test_vectors.md, the vector named) -/

/-- A2: wraps upward. -/
theorem test_add_wraps : nextIs (start 0 [1, 0, 1, 0] [(0, 0x7FFF)])
    (fun t => t.readReg 0 == 0x8000 && t.pc == 4 && t.cycles == 1) = true := by decide
/-- A7: 65534 wraps to -2, and the source keeps its value. -/
theorem test_add_other_register : nextIs (start 0 [1, 6, 0x7FFF, 7] [(6, 0x7FFF)])
    (fun t => t.readReg 7 == 0xFFFE && t.readReg 6 == 0x7FFF) = true := by decide
/-- C4: signed, where an unsigned comparison would give 1. -/
theorem test_cmp_signed : nextIs (start 0 [2, 1, 2, 3] [(1, 0xFFFF), (2, 1)])
    (fun t => t.readReg 3 == 0xFFFF && t.pc == 4) = true := by decide
/-- C8: `to` is `left`; the sources are read first. -/
theorem test_cmp_to_left : nextIs (start 0 [2, 1, 2, 1] [(1, 5), (2, 3)])
    (fun t => t.readReg 1 == 1 && t.readReg 2 == 3) = true := by decide
/-- M1. -/
theorem test_mov : nextIs (start 0 [5, 7, 9] [(7, 0xFFFE)])
    (fun t => t.readReg 9 == 0xFFFE && t.readReg 7 == 0xFFFE && t.pc == 3) = true := by decide
/-- T5: the immediate comes first. -/
theorem test_set_operand_order : nextIs (start 0 [6, 3, 6] [])
    (fun t => t.readReg 6 == 3 && t.readReg 3 == 0 && t.pc == 3) = true := by decide
/-- E17: any immediate, the highest index. -/
theorem test_set_highest : nextIs (start 0 [6, 0xFFFF, 0x00FF] [])
    (fun t => t.readReg 255 == 0xFFFF && t.pc == 3) = true := by decide
/-- J1: nothing is added to the target. -/
theorem test_jmp : nextIs (start 10 [3, 0] [(0, 20)]) (fun t => t.pc == 20 && t.cycles == 1) = true := by decide
/-- J6: the JMP itself completes. -/
theorem test_jmp_out_of_range : nextIs (start 10 [3, 0] [(0, 0x8000)])
    (fun t => t.pc == 0x8000 && t.cycles == 1 && t.runState == .running) = true := by decide
/-- K4: any nonzero pattern is true. -/
theorem test_jmpc_taken : nextIs (start 10 [4, 1, 0] [(1, 40), (0, 0x8000)]) (fun t => t.pc == 40) = true := by decide
/-- K5: the target is not examined when not taken. -/
theorem test_jmpc_not_taken : nextIs (start 10 [4, 1, 0] [(1, 999)])
    (fun t => t.pc == 13 && t.cycles == 1) = true := by decide
/-- E9: HALT has no bound check. -/
theorem test_halt_at_255 : nextIs (start 255 [0] [])
    (fun t => t.runState == .halted && t.pc == 255 && t.cycles == 0 && t.out == [.trace 0, .haltedAt 0]) = true := by
  decide

/-! ### The engine's checks (95_test_vectors.md 2.1) -/

/-- E1. -/
theorem test_illegal_events : nextIs (start 3 [7] [])
    (fun t => t.out == [.trace 7, .badOpcode 7, .abortedAt .unfoundInstruction 0]) = true := by decide
/-- E3: an illegal opcode at 255 is cause 1, not 2. -/
theorem test_illegal_at_255 : abortsWith (start 255 [7] []) .unfoundInstruction = true := by decide
/-- E5 and E6: the last operand at 254 executes, at 255 aborts. -/
theorem test_bound_252 : nextIs (start 252 [6, 9, 1] []) (fun t => t.readReg 1 == 9 && t.pc == 255) = true := by decide
theorem test_bound_253 : abortsWith (start 253 [6, 9, 1] []) .operandsOutOfBounds = true := by decide
/-- S5: the operand cells do not exist. -/
theorem test_bound_254 : abortsWith (start 254 [6] []) .operandsOutOfBounds = true := by decide
/-- E10 and E11: no Trace. -/
theorem test_pc_256 : nextIs (start 256 [] []) (fun t => t.out == [.abortedAt .pcOutOfRange 0]) = true := by decide
theorem test_pc_minus_1 : abortsWith (start 0xFFFF [] []) .pcOutOfRange = true := by decide
/-- E12: the bound check comes before the register-index check. -/
theorem test_bound_before_index : abortsWith (start 253 [5, 256, 0] []) .operandsOutOfBounds = true := by decide
/-- E14 and E16. -/
theorem test_index_minus_1 : abortsWith (start 0 [6, 0x012C, 0xFFFF] []) .regIndexOutOfRange = true := by decide
theorem test_index_jmpc_not_taken : abortsWith (start 0 [4, 256, 0] []) .regIndexOutOfRange = true := by decide
/-- B3: low byte first. -/
theorem test_load_low_byte_first : (loadImage [0xFE, 0xFF]).map (fun m => m.readWord 0) = .ok 0xFFFE := by rfl
/-- The step runs the stored row as the first instruction after reset. -/
theorem test_withFetchWord : nextIs (State.reset.withFetchWord 48 0x000000050006)
    (fun t => t.readReg 0 == 5 && t.pc == 3) = true := by decide

/-! ### Witnesses: a state and operands that meet every hypothesis of a statement, at the edges of its clauses -/

/-- LoadFailsExactlyOnOddOrOversizedImages, LoadCopiesTheImageIntoMemoryFromCellZero: each clause has an image. -/
theorem witness_load_lengths :
    (List.replicate 513 (0 : Byte)).length % 2 ≠ 0 ∧
    ((List.replicate 514 (0 : Byte)).length % 2 = 0 ∧ 512 < (List.replicate 514 (0 : Byte)).length) ∧
    ((List.replicate 512 (0 : Byte)).length % 2 = 0 ∧ 0 < (List.replicate 512 (0 : Byte)).length ∧
      (List.replicate 512 (0 : Byte)).length ≤ 512 ∧ 2 * 255 + 1 < (List.replicate 512 (0 : Byte)).length) ∧
    (([] : List Byte).length % 2 = 0 ∧ ([] : List Byte).length ≤ 2 * 0) := by
  simp only [List.length_replicate, List.length_nil]
  decide

/-- LaunchIsResetWithTheLoadedMemory, InvariantHoldsAtEveryLaunch. -/
theorem witness_launch :
    loadImage [0x01] = .error .malformedProgram ∧ (∃ m, loadImage [0x03, 0x00] = .ok m) ∧
      ∃ s, State.launch [0x03, 0x00] = .ok s :=
  ⟨by rfl, ⟨_, by rfl⟩, ⟨_, by rfl⟩⟩

/-- CellReadsTheWordLastWritten at the last cell, CanonicalMemoriesThatReadAlikeAreEqual. -/
theorem witness_memory : ∃ m m' : Memory, m.wf ∧ m'.wf ∧ (255 < 256) ∧ ∀ k < 256, m.readWord k = m'.readWord k :=
  ⟨[(511, 1)], [(511, 1)], by decide, by decide, by decide, fun _ _ => by rfl⟩

/-- OpcodeMapReadsEveryWord and IllegalOpcodeWarnsAndAborts, on both sides of 0..6. -/
theorem witness_illegal :
    (∃ op : Word, op.toInt < 0) ∧ (∃ op : Word, 6 < op.toInt) ∧
    (∃ s : State, s.runState = .running ∧ PcInRange s.pc ∧ (s.mem.readWord s.pc.toNat).toInt < 0) ∧
    (∃ s : State, s.runState = .running ∧ PcInRange s.pc ∧ 6 < (s.mem.readWord s.pc.toNat).toInt) :=
  ⟨⟨0xFFFF, by decide⟩, ⟨7, by decide⟩, ⟨start 0 [0x8000] [], by decide⟩, ⟨start 255 [7] [], by decide⟩⟩

/-- FetchedInstructionIsTheConsecutiveWordsAtThePc, with the last operand in the last cell, and below and above an operand's
place. -/
theorem witness_fetched : (fetch (start 253 [6, 9, 1] [])).2 = .ok (.set 9 1) ∧
    (0 < (Instr.set 9 1).opcode.arity ∧ ¬ 2 < (Instr.set 9 1).opcode.arity) := by decide

/-- StepRunsTheDecodedInstruction at the last cell. -/
theorem witness_step_decoded : ∃ (s : State) (i : Instr) (rest : List Word), s.runState = .running ∧ PcInRange s.pc ∧
    decodeWords (s.mem.read s.pc.toNat (min 4 (256 - s.pc.toNat))) = .ok (i, rest) :=
  ⟨start 255 [0] [], .halt, [], by rfl, by decide, by rfl⟩

/-- EncodedInstructionAtThePcRuns, with the last operand in the last cell. -/
theorem witness_encoded : ∃ (s : State) (i : Instr), s.runState = .running ∧ 0 ≤ s.pc.toInt ∧
    s.pc.toInt + (i.opcode.arity : Int) ≤ 255 ∧ s.mem.read s.pc.toNat i.length = encode i :=
  ⟨start 252 [1, 1, 2, 3] [], .add 1 2 3, by decide⟩

/-- StoredTableWordIsTheNextInstructionRun at its last pc. -/
theorem witness_stored : ∃ (s : State) (i : Instr), s.mem.wf ∧ s.runState = .running ∧ 0 ≤ s.pc.toInt ∧
    s.pc.toInt ≤ 252 ∧ decodeTableWord 16 1 = some i :=
  ⟨start 252 [] [], .add 0 0 0, by decide⟩

/-- The statements about `step s = .next t` with no other hypothesis (MemoryNeverChangesInAStep,
StepCompletesWholeOrLeavesNoEffect, OutputStreamIsOnlyAppendedTo), and both clauses of CyclesCountCompletedStepsOnly. -/
theorem witness_next : (∃ t, step (start 0 [6, 5, 0] []) = .next t ∧ t.runState = .running) ∧
    ∃ t, step (start 0 [0] []) = .next t ∧ t.runState ≠ .running :=
  ⟨⟨_, by rfl, by rfl⟩, ⟨_, by rfl, by decide⟩⟩

/-- FetchEmitsTraceAndThenBadOpcodeIfOutOfRange: its three clauses, the opcode on each side of 0 and of 6. -/
theorem witness_fetch_events :
    (∃ t, step (start 0 [7] []) = .next t) ∧ (∃ t, step (start 0 [0xFFFF] []) = .next t) ∧
    (∃ t, step (start 0 [0] []) = .next t) ∧ (∃ t, step (start 0 [6, 0, 0] []) = .next t) ∧
    (∃ t, step (start 256 [] []) = .next t) ∧ PcInRange 0 ∧ ¬ PcInRange 256 ∧
    (6 < ((start 0 [7] []).mem.readWord 0).toInt) ∧ ((start 0 [0xFFFF] []).mem.readWord 0).toInt < 0 :=
  ⟨⟨_, by rfl⟩, ⟨_, by rfl⟩, ⟨_, by rfl⟩, ⟨_, by rfl⟩, ⟨_, by rfl⟩, by decide⟩

/-- ZeroOpcodeHaltsAtAnyIndex at the last cell. -/
theorem witness_zero : ∃ s : State, s.runState = .running ∧ PcInRange s.pc ∧ s.mem.readWord s.pc.toNat = 0x0000#16 :=
  ⟨start 255 [0] [], by decide⟩

/-- OperandBoundAbortsExactlyByTheFormula on both sides of the formula, and for HALT. -/
theorem witness_bound :
    (∃ (s : State) (o : Opcode), s.runState = .running ∧ PcInRange s.pc ∧ s.mem.readWord s.pc.toNat = o.word ∧
      o ≠ .halt ∧ s.pc.toInt + 1 + (o.arity : Int) = 256) ∧
    (∃ (s : State) (o : Opcode), s.runState = .running ∧ PcInRange s.pc ∧ s.mem.readWord s.pc.toNat = o.word ∧
      o ≠ .halt ∧ s.pc.toInt + 1 + (o.arity : Int) = 255) ∧
    (∃ (s : State) (o : Opcode), s.runState = .running ∧ PcInRange s.pc ∧ s.mem.readWord s.pc.toNat = o.word ∧
      o = .halt) :=
  ⟨⟨start 253 [6, 9, 1] [], .set, by decide⟩, ⟨start 252 [6, 9, 1] [], .set, by decide⟩, ⟨start 255 [0] [], .halt, by decide⟩⟩

/-- OutOfRangePcAbortsBeforeTheFetch on both sides of 0..255. -/
theorem witness_pc : (∃ s : State, s.runState = .running ∧ s.pc.toInt < 0) ∧
    ∃ s : State, s.runState = .running ∧ 256 ≤ s.pc.toInt :=
  ⟨⟨start 0xFFFF [] [], by decide⟩, ⟨start 256 [] [], by decide⟩⟩

/-- FirstApplicableOutcomeInStageOrderDecides, the last clauses: bound, then ill-formed, then well-formed; the earlier ones
have `witness_pc`, `witness_zero` and `witness_illegal`. -/
theorem witness_order :
    ((∃ t, step (start 253 [5, 256, 0] []) = .next t) ∧ (start 253 [5, 256, 0] []).mem.readWord 253 = Opcode.mov.word) ∧
    ((∃ t, step (start 252 [5, 256, 0] []) = .next t) ∧
      (start 252 [5, 256, 0] []).mem.read 252 3 = encode (.mov 256 0) ∧ ¬ (Instr.mov 256 0).WellFormed) ∧
    ((∃ t, step (start 252 [5, 255, 0] []) = .next t) ∧
      (start 252 [5, 255, 0] []).mem.read 252 3 = encode (.mov 255 0) ∧ (Instr.mov 255 0).WellFormed) :=
  ⟨⟨⟨_, by rfl⟩, by decide⟩, ⟨⟨_, by rfl⟩, by decide⟩, ⟨⟨_, by rfl⟩, by decide⟩⟩

/-- StepExistsExactlyWhileRunning: the three run states. -/
theorem witness_run_states : (∃ s : State, s.runState = .halted) ∧ (∃ s : State, s.runState = .aborted) ∧
    ∃ s : State, s.runState = .running :=
  ⟨⟨State.reset.halt, by rfl⟩, ⟨State.reset.raiseAbort .pcOutOfRange, by rfl⟩, ⟨State.reset, by rfl⟩⟩

/-- SequentialAdvanceStaysInMemory at its lowest and highest next pc, and for a JMPC not taken. -/
theorem witness_sequential :
    (∃ t, step (start 0 [6, 5, 0] []) = .next t ∧ (fetch (start 0 [6, 5, 0] [])).2 = .ok (.set 5 0) ∧
      t.runState = .running) ∧
    (∃ t, step (start 251 [1, 0, 1, 0] []) = .next t ∧ (fetch (start 251 [1, 0, 1, 0] [])).2 = .ok (.add 0 1 0) ∧
      t.runState = .running) ∧
    (∃ t, step (start 0 [4, 1, 0] []) = .next t ∧ (fetch (start 0 [4, 1, 0] [])).2 = .ok (.jmpc 1 (regWord 0)) ∧
      t.runState = .running ∧ (start 0 [4, 1, 0] []).readReg 0 = 0x0000#16) :=
  ⟨⟨_, by rfl, by rfl, by rfl⟩, ⟨_, by rfl, by rfl, by rfl⟩, ⟨_, by rfl, by rfl, by rfl, by rfl⟩⟩

/-- StepDependsOnMemoryRegistersAndPcAlone on two states that differ in all three other fields. -/
theorem witness_same_inputs : ∃ s s' t : State, s ≠ s' ∧ s.mem = s'.mem ∧ s.regs = s'.regs ∧ s.pc = s'.pc ∧
    s.runState = s'.runState ∧ step s = .next t :=
  ⟨start 0 [6, 5, 0] [], { start 0 [6, 5, 0] [] with cycles := 9, abortCause := some .pcOutOfRange, out := [.haltedAt 1] }, _,
    by simp [start, State.reset], by rfl, by rfl, by rfl, by rfl, by rfl⟩

/-- NoWordBeyondTheInstructionInfluencesTheStep with two memories that differ right after the instruction. -/
theorem witness_beyond : ∃ (s t : State) (m : Memory), m ≠ s.mem ∧ step s = .next t ∧
    m.readWord s.pc.toNat = s.mem.readWord s.pc.toNat ∧
    ∀ o : Opcode, s.mem.readWord s.pc.toNat = o.word →
      m.read (s.pc.toNat + 1) o.arity = s.mem.read (s.pc.toNat + 1) o.arity :=
  ⟨start 0 [3, 0] [], _, (start 0 [3, 0, 7] []).mem, by decide, by rfl, by decide, fun o => by cases o <;> decide⟩

/-- The completion statements of ADD, CMP, MOV, SET, JMP and JMPC at the last pc each may start at (R69). -/
theorem witness_executable :
    Executable .add (start 251 [] []) ∧ Executable .cmp (start 251 [] []) ∧ Executable .mov (start 252 [] []) ∧
    Executable .set (start 252 [] []) ∧ Executable .jmp (start 253 [] []) ∧ Executable .jmpc (start 252 [] []) := by
  decide

/-- The clauses of CmpWritesTheSignedComparison and JmpcJumpsOnNonzeroAndElseFallsThrough. -/
theorem witness_conditions :
    Executable .cmp (start 0 [] [(1, 0x8000), (2, 0x7FFF)]) ∧
    ((start 0 [] [(1, 0x8000), (2, 0x7FFF)]).readReg 1).toInt < ((start 0 [] [(1, 0x8000), (2, 0x7FFF)]).readReg 2).toInt ∧
    ((start 0 [] []).readReg 1).toInt = ((start 0 [] []).readReg 2).toInt ∧
    ((start 0 [] [(1, 1)]).readReg 2).toInt < ((start 0 [] [(1, 1)]).readReg 1).toInt ∧
    Executable .jmpc (start 0 [] [(1, 0xFFFF)]) ∧ ((start 0 [] [(1, 0xFFFF)]).readReg 1).toInt ≠ 0 ∧
    ((start 0 [] [(1, 0xFFFF)]).readReg 2).toInt = 0 := by
  decide

/-- InstructionTooCloseToTheEndAborts and IllFormedInstructionAbortsWithNoEffect where they meet. -/
theorem witness_aborting :
    (Instr.jmp 0 ≠ .halt ∧ 256 = (start 254 [] []).pc.toInt + 1 + ((Instr.jmp 0).opcode.arity : Int)) ∧
    (¬ (Instr.jmp 256).WellFormed ∧ (start 253 [] []).pc.toInt + 1 + ((Instr.jmp 256).opcode.arity : Int) < 256) := by
  decide

/-- InstructionWritesAtMostItsDestinationRegister, and its last clause. -/
theorem witness_frame : ∃ t, exec (.set 5 0) (start 0 [] []) = .next t ∧ destination? (.set 5 0) ≠ some (regWord 1) ∧
    t.runState = (start 0 [] []).runState ∧ (start 0 [] []).runState = .running :=
  ⟨_, by rfl, by decide, by rfl, by rfl⟩

/-- OutOfRangeJumpCompletesAndTheNextStepAborts for both instructions at the last pc of each, just outside 0..255 on both
sides; the condition is -1. -/
theorem witness_out_of_range_jump :
    ((start 253 [3, 0] [(0, 256)]).runState = .running ∧
      (fetch (start 253 [3, 0] [(0, 256)])).2 = .ok (.jmp (regWord 0)) ∧
      (start 253 [3, 0] [(0, 256)]).pc.toInt + 1 + ((Instr.jmp (regWord 0)).opcode.arity : Int) < 256 ∧
      256 ≤ ((start 253 [3, 0] [(0, 256)]).readReg 0).toInt) ∧
    ((start 252 [4, 0, 1] [(0, 0xFFFF), (1, 0xFFFF)]).runState = .running ∧
      (fetch (start 252 [4, 0, 1] [(0, 0xFFFF), (1, 0xFFFF)])).2 = .ok (.jmpc (regWord 0) (regWord 1)) ∧
      ((start 252 [4, 0, 1] [(0, 0xFFFF), (1, 0xFFFF)]).readReg 1).toInt ≠ 0 ∧
      (start 252 [4, 0, 1] [(0, 0xFFFF), (1, 0xFFFF)]).pc.toInt + 1 +
        ((Instr.jmpc (regWord 0) (regWord 1)).opcode.arity : Int) < 256 ∧
      ((start 252 [4, 0, 1] [(0, 0xFFFF), (1, 0xFFFF)]).readReg 0).toInt < 0) :=
  ⟨⟨by rfl, by rfl, by decide, by decide⟩, ⟨by rfl, by rfl, by decide, by decide, by decide⟩⟩

/-- EveryStepKeepsTheInvariant from a state that is not reset: two cycles done, the next Word illegal. -/
theorem witness_invariant : ∃ s t : State, RunInvariant s ∧ step s = .next t ∧ t.runState = .aborted :=
  ⟨{ start 6 [7] [] with cycles := 2, out := [.trace 6, .trace 6] }, _,
    ⟨by decide, ⟨by decide, by decide⟩, [6, 6], [], by rfl, by rfl,
      by simp only [List.mem_cons, List.not_mem_nil, or_false, or_self, forall_eq]; decide, by rfl⟩, by rfl, by rfl⟩

/-- RunOfStepsAddsItsLengthToTheCycleCount: one step and then the halt. -/
theorem witness_run : ∃ s t : State, s.runState = .running ∧ Host.Core.run Sys2Proof.core 2 s = .next t ∧
    t.runState ≠ .running :=
  ⟨start 0 [6, 5, 0] [], _, by rfl, by rfl, by decide⟩

end Sys2Proof.Tests
end

/-! Memory and the step: no stage of a step writes Memory (20_memory.md R33). -/

namespace Sys2Proof.Machine

/-- The fetch emits events and reads Memory; it writes none of it. -/
@[simp] theorem fetch_mem (s : State) : (fetch s).1.mem = s.mem := by
  obtain h | ⟨-, h⟩ := fetch_state s
  · rw [h]
  · rw [h, traceOpcode_mem]

/-- No form of an instruction's next state has a store in it. -/
theorem ExecResult.mem_eq {s t : State} (h : ExecResult s t) : t.mem = s.mem := by
  cases h with
  | halted => exact halt_mem ..
  | bound | index => exact raiseAbort_mem ..
  | jumped p => exact complete_mem ..
  | wrote i v p => rw [complete_mem, writeReg_mem]

/-- Settles O9: a step is a fetch and then an instruction or an abort, and each of the three keeps Memory. -/
theorem memoryNeverChangesInAStep : Obligations.MemoryNeverChangesInAStep := by
  intro s t h
  obtain ⟨-, ⟨i, -, hexec⟩ | ⟨c, -, rfl⟩⟩ := step_cases h
  · rw [(exec_cases hexec).mem_eq, fetch_mem]
  · rw [raiseAbort_mem, fetch_mem]

end Sys2Proof.Machine

/-! Encoding: the opcode map, the Words of the fetched instruction, and the abort of an illegal opcode
(30_encoding.md R46, R53, R55). -/

namespace Sys2Proof

theorem Opcode.arity_le_three (o : Opcode) : o.arity ≤ 3 := by cases o <;> decide

theorem Instr.length_cases (i : Instr) : i.length = 1 ∨ i.length = 2 ∨ i.length = 3 ∨ i.length = 4 := by
  have := i.opcode.arity_le_three
  simp only [Instr.length]
  omega

end Sys2Proof

namespace Sys2Proof.Machine

/-- An opcode Word that matches no row of the map is rejected, whatever Words follow it (R53, R55). -/
theorem decodeWords_of_badOpcode {op : Word} (h : IsBadOpcode op) (ws : List Word) :
    decodeWords (op :: ws) = .error (.unfoundInstruction op) := by
  simp only [decodeWords, isBadOpcode_iff.1 h]

/-- Settles O10: each row is the encoding of its instruction, and the range check covers the Words of no row. -/
theorem opcodeMapReadsEveryWord : Obligations.OpcodeMapReadsEveryWord := fun a b c _ rest =>
  ⟨decodeWords_encode .halt rest, decodeWords_encode (.add a b c) rest, decodeWords_encode (.cmp a b c) rest,
    decodeWords_encode (.jmp a) rest, decodeWords_encode (.jmpc a b) rest, decodeWords_encode (.mov a b) rest,
    decodeWords_encode (.set a b) rest, fun h => decodeWords_of_badOpcode h rest⟩

theorem Memory.getElem?_read (m : Memory) (addr n k : Nat) :
    (m.read addr n)[k]? = if k < n then some (m.readWord (addr + k)) else none := by
  by_cases h : k < n <;> simp [Memory.read, h]

/-- Inversion of a fetch that gives an instruction: the pc is in range, the operand cells exist, and the Words of the
instruction stand in the cells from the pc on (R46). -/
theorem words_of_fetch_ok {s : State} {i : Instr} (h : (fetch s).2 = .ok i) :
    PcInRange s.pc ∧ fetchOpcode s = i.opcode.word ∧ s.pc.toInt + (i.opcode.arity : Int) ≤ 255 ∧
      s.mem.read (s.pc.toNat + 1) i.opcode.arity = i.operands := by
  rcases fetch_cases s with ⟨-, e⟩ | ⟨-, -, e⟩ | ⟨-, -, e⟩ | ⟨hp, j, ho, hb, hw, e⟩
  · simp [e] at h
  · simp [e] at h
  · simp [e] at h
  · rw [e] at h
    obtain rfl := Except.ok.inj h
    exact ⟨hp, ho, hb, hw⟩

/-- Settles O13: the opcode Word and the operand Words of the fetch are one read of consecutive cells. -/
theorem fetchedInstructionIsTheConsecutiveWordsAtThePc :
    Obligations.FetchedInstructionIsTheConsecutiveWordsAtThePc := by
  intro s i h
  obtain ⟨-, ho, hb, hw⟩ := words_of_fetch_ok h
  refine ⟨hb, ?_, fun k => ?_, i.length_cases⟩
  · rw [Nat.add_comm, Memory.read_succ, hw, ← ho, fetchOpcode]
  · rw [← hw, Memory.getElem?_read]

theorem traceOpcode_of_bad {op : Word} (h : IsBadOpcode op) (s : State) :
    traceOpcode op s = (s.emit (.trace op)).emit (.badOpcode op) := if_pos h

/-- Every illegal opcode at an in-range pc is traced, reported and found by no row (R65, R66, R68). -/
theorem fetch_of_badOpcode {s : State} (hp : PcInRange s.pc) (hbad : IsBadOpcode (fetchOpcode s)) :
    fetch s = (traceOpcode (fetchOpcode s) s, .error .unfoundInstruction) := by
  rw [fetch, if_pos hp, fetchWords_of_inRange hp, decodeWords_of_badOpcode hbad]
  rfl

/-- Settles O20: the fetch ends in the error after its two events, and the abort adds the third. -/
theorem illegalOpcodeWarnsAndAborts : Obligations.IllegalOpcodeWarnsAndAborts := by
  intro s hr hp hbad
  rw [← fetchOpcode] at hbad ⊢
  have hf := fetch_of_badOpcode hp hbad
  refine ⟨[.trace (fetchOpcode s)], ?_⟩
  rw [step_of_fetch_error hr (congrArg Prod.snd hf), hf, traceOpcode_of_bad hbad]
  simp [State.raiseAbort, State.emit]

end Sys2Proof.Machine

/-! The stages of the Execution Engine: the halt check, the operand-bound check and the count
(40_execution_engine.md R67, R69, R74). -/

namespace Sys2Proof.Machine

/-- Opcode 0 has no operand cells, so it is fetched whole at every index of Memory, and it halts (R67). -/
theorem step_of_haltOpcode {s : State} (hr : s.runState = .running) (hp : PcInRange s.pc)
    (ho : fetchOpcode s = Opcode.halt.word) : step s = .next (s.emit (.trace Opcode.halt.word)).halt := by
  have hlt : s.pc.toInt < 256 := hp.2
  have hf : fetch s = (s.emit (.trace Opcode.halt.word), .ok .halt) :=
    fetch_of_words (i := .halt) hp ho (by simp only [Instr.opcode, Opcode.arity]; omega) rfl
  rw [step_of_fetch_ok hr (congrArg Prod.snd hf), hf]
  rfl

/-- Settles O19: the step is the fetch's `Trace` event and then HALT. -/
theorem zeroOpcodeHaltsAtAnyIndex : Obligations.ZeroOpcodeHaltsAtAnyIndex := by
  intro s hr hp ho
  exact ⟨[.trace Opcode.halt.word], step_of_haltOpcode hr hp ho⟩

section operandBound
variable {s t : State} {o : Opcode} {i : Instr}

/-- Every instruction but HALT begins with the operand-bound check of its own opcode (R69). -/
theorem exec_of_bound (hi : i.opcode ≠ .halt) (hb : OperandsOutOfBounds i.opcode s.pc) :
    exec i s = .next (s.raiseAbort .operandsOutOfBounds) := by
  cases i with
  | halt => exact absurd rfl hi
  | add | cmp | jmp | jmpc | mov | set => exact withOperands_of_bound hb

/-- Where the formula holds, the step aborts, whether the missing operand cells already stopped the fetch or the
instruction's own check does (R69, log entry 4). -/
theorem step_of_bound (hr : s.runState = .running) (hp : PcInRange s.pc) (ho : fetchOpcode s = o.word)
    (hne : o ≠ .halt) (hb : OperandsOutOfBounds o s.pc) :
    step s = .next ((s.emit (.trace o.word)).raiseAbort .operandsOutOfBounds) := by
  rcases fetch_cases s with ⟨h, -⟩ | ⟨-, h, -⟩ | ⟨-, -, hf⟩ | ⟨-, i, hi, -, -, hf⟩
  · exact absurd hp h
  · exact absurd (ho ▸ h) (not_isBadOpcode_word o)
  · rw [step_of_fetch_error hr (congrArg Prod.snd hf), hf, ho]
  · obtain rfl := word_injective (ho.symm.trans hi)
    rw [step_of_fetch_ok hr (congrArg Prod.snd hf), hf, ho]
    exact exec_of_bound hne hb

/-- What may follow the operand-bound check in the state `s`: the register-index abort, or a step that is counted. -/
def PastBound (s : State) (outcome : Host.Outcome State Fault Refusal) : Prop :=
  ∀ t, outcome = .next t → t = s.raiseAbort .regIndexOutOfRange ∨ t.cycles = s.cycles + 1

theorem pastBound_complete (p : Word) (ht : t.cycles = s.cycles) : PastBound s (.next (t.complete p)) := by
  rintro _ ⟨⟩
  exact .inr (by rw [complete_cycles, ht])

theorem pastBound_withReg {w : RegOperand} {rest : Fin Config.numRegs → Host.Outcome State Fault Refusal}
    (h : ∀ i, PastBound s (rest i)) : PastBound s (withReg w s rest) := by
  intro t ht
  obtain ⟨-, rfl⟩ | ⟨i, -, hrest⟩ := withReg_cases ht
  · exact .inl rfl
  · exact h i t hrest

theorem pastBound_withOperands {rest : Host.Outcome State Fault Refusal} (hb : ¬ OperandsOutOfBounds o s.pc)
    (h : PastBound s rest) : PastBound s (withOperands o s rest) := by
  rwa [withOperands_of_fit hb]

/-- An instruction that passes the operand-bound check aborts by the register-index check or is counted. -/
theorem exec_pastBound (hi : i.opcode ≠ .halt) (hb : ¬ OperandsOutOfBounds i.opcode s.pc) : PastBound s (exec i s) := by
  cases i with
  | halt => exact absurd rfl hi
  | add | mov | jmpc =>
    exact pastBound_withOperands hb <| pastBound_withReg fun _ => pastBound_withReg fun _ => pastBound_complete _ rfl
  | cmp =>
    exact pastBound_withOperands hb <| pastBound_withReg fun _ => pastBound_withReg fun _ => pastBound_withReg fun _ =>
      pastBound_complete _ rfl
  | jmp | set => exact pastBound_withOperands hb <| pastBound_withReg fun _ => pastBound_complete _ rfl

/-- Where the formula fails, the operand cells exist and the step is one past the operand-bound check. -/
theorem step_of_fit (hr : s.runState = .running) (hp : PcInRange s.pc) (ho : fetchOpcode s = o.word)
    (hne : o ≠ .halt) (hb : ¬ OperandsOutOfBounds o s.pc) : PastBound (s.emit (.trace o.word)) (step s) := by
  rcases fetch_cases s with ⟨h, -⟩ | ⟨-, h, -⟩ | ⟨-, ⟨p, h, -, hlarge⟩, -⟩ | ⟨-, i, hi, -, -, hf⟩
  · exact absurd hp h
  · exact absurd (ho ▸ h) (not_isBadOpcode_word o)
  · obtain rfl := word_injective (ho.symm.trans h)
    simp only [OperandsOutOfBounds, Config.memSpace] at hb
    omega
  · obtain rfl := word_injective (ho.symm.trans hi)
    rw [step_of_fetch_ok hr (congrArg Prod.snd hf), hf, ho]
    exact exec_pastBound hne hb

end operandBound

/-- Settles O21: where the formula holds the step is `Trace` and the abort; a step past the check has another cause or
another count. -/
theorem operandBoundAbortsExactlyByTheFormula : Obligations.OperandBoundAbortsExactlyByTheFormula := by
  intro s o hr hp ho
  refine ⟨fun hne => ⟨fun hb => ⟨[.trace o.word], step_of_bound hr hp ho hne hb⟩, ?_⟩, ?_⟩
  · rintro ⟨es, hstep⟩
    by_contra hb
    obtain h | h := step_of_fit hr hp ho hne hb _ hstep
    · have hcause := congrArg State.abortCause h
      simp at hcause
    · simp at h
  · rintro rfl
    exact ⟨_, step_of_haltOpcode hr hp ho, halt_runState _⟩

@[simp] theorem fetch_runState (s : State) : (fetch s).1.runState = s.runState := by
  obtain h | ⟨-, h⟩ := fetch_state s
  · rw [h]
  · rw [h, traceOpcode_runState]

@[simp] theorem fetch_cycles (s : State) : (fetch s).1.cycles = s.cycles := by
  obtain h | ⟨-, h⟩ := fetch_state s
  · rw [h]
  · rw [h, traceOpcode_cycles]

/-- The two completing forms of an instruction's next state count; the other three leave Running and do not (R74). -/
theorem ExecResult.cycles_eq {s t : State} (h : ExecResult s t) (hr : s.runState = .running) :
    (t.runState = .running → t.cycles = s.cycles + 1) ∧ (t.runState ≠ .running → t.cycles = s.cycles) := by
  cases h with
  | halted | bound | index => simp
  | jumped p | wrote i v p => simp [hr]

/-- Settles O25: the fetch counts nothing, an abort leaves Running, and an instruction counts exactly if it completes. -/
theorem cyclesCountCompletedStepsOnly : Obligations.CyclesCountCompletedStepsOnly := by
  intro s t h
  obtain ⟨hr, ⟨i, -, hexec⟩ | ⟨c, -, rfl⟩⟩ := step_cases h
  · have hcount := (exec_cases hexec).cycles_eq ((fetch_runState s).trans hr)
    rwa [fetch_cycles] at hcount
  · simp

end Sys2Proof.Machine

/-! Exceptions: the state `raise Abort(cause)` leaves (60_exceptions.md R104). -/

namespace Sys2Proof.Machine

/-- Settles O27: the three assignments of R104 and its frame, field by field from the laws of `raiseAbort`. -/
theorem raiseAbortChangesStatusAndOutputOnly : Obligations.RaiseAbortChangesStatusAndOutputOnly := fun s cause =>
  ⟨raiseAbort_runState s cause, raiseAbort_abortCause s cause, raiseAbort_out s cause, raiseAbort_regs s cause,
    raiseAbort_pc s cause, raiseAbort_cycles s cause, raiseAbort_mem s cause⟩

end Sys2Proof.Machine

/-! Reset and the load: the reset value of every read, and the one outcome of the load in each class of image lengths
(70_reset_and_hazards.md R119, R126 to R128). -/

namespace Sys2Proof.Machine

@[simp] theorem readReg_reset (i : Fin Config.numRegs) : State.reset.readReg i = 0x0000#16 :=
  List.getElem_replicate ..

/-- Memory with nothing listed reads 0 in both bytes of every cell. -/
@[simp] theorem Memory.readWord_nil (k : Nat) : Memory.readWord [] k = 0x0000#16 := rfl

/-- Settles O1: registers and Memory by what reset's empty contents read as, the other fields by definition. -/
theorem resetPutsAllStateAtItsResetValue : Obligations.ResetPutsAllStateAtItsResetValue :=
  ⟨readReg_reset, rfl, rfl, rfl, rfl, rfl, fun k _ => Memory.readWord_nil k⟩

section loadImage
variable {image : List Byte}

/-- The parity check is first: no bound on the length is asked (R126). -/
theorem loadImage_of_odd (hodd : image.length % Config.wordBytes ≠ 0) : loadImage image = .error .malformedProgram :=
  if_pos hodd

theorem loadImage_of_oversized (heven : image.length % Config.wordBytes = 0)
    (hsize : Config.maxImageBytes < image.length) : loadImage image = .error .programTooLarge := by
  rw [loadImage, if_neg (not_not.2 heven), if_pos hsize]

theorem loadImage_of_fits (heven : image.length % Config.wordBytes = 0) (hsize : image.length ≤ Config.maxImageBytes) :
    loadImage image = .ok (Memory.write State.reset.mem 0 (wordsOfBytes image)) := by
  rw [loadImage, if_neg (not_not.2 heven), if_neg (Nat.not_lt.2 hsize)]

end loadImage

/-- Settles O2: each class of lengths has its one outcome, and the last outcome is no error. -/
theorem loadFailsExactlyOnOddOrOversizedImages : Obligations.LoadFailsExactlyOnOddOrOversizedImages := by
  refine fun image => ⟨loadImage_of_odd, loadImage_of_oversized, fun heven _ hsize e hfail => ?_⟩
  rw [loadImage_of_fits heven hsize] at hfail
  cases hfail

end Sys2Proof.Machine

/-! Decode and encode over image bytes (30_encoding.md R46, R50, R53, R62). -/

namespace Sys2Proof

/-- Bytes whose first whole Words are `ws` begin with the image bytes of `ws`: a Word has one pair of bytes (R62). -/
theorem eq_bytesOfWords_append_drop {ws rest : List Word} {bs : List Byte} (h : wordsOfBytes bs = ws ++ rest) :
    bs = bytesOfWords ws ++ bs.drop (Config.wordBytes * ws.length) := by
  induction ws generalizing bs with
  | nil => simp [bytesOfWords]
  | cons w ws ih =>
    match bs, h with
    | lo :: hi :: tail, h =>
      obtain ⟨rfl, htail⟩ := List.cons.inj h
      rw [bytesOfWords, lowByte_wordOfBytes, highByte_wordOfBytes, List.cons_append, List.cons_append]
      exact congrArg (lo :: hi :: ·) (ih htail)

/-- The image bytes of an instruction decode to it and leave the bytes after them. -/
theorem decodeBytes_encodeBytes (i : Instr) (rest : List Byte) : decodeBytes (encodeBytes i ++ rest) = .ok (i, rest) := by
  rw [decodeBytes, encodeBytes, wordsOfBytes_bytesOfWords_append, decodeWords_encode]
  have hlen := length_bytesOfWords (encode i)
  rw [length_encode] at hlen
  simp only [← hlen, List.drop_left]

/-- Inversion of the byte decoder: it answers an instruction only for Words that begin with the instruction's. -/
theorem words_of_decodeBytes_ok {i : Instr} {bs rest : List Byte} (h : decodeBytes bs = .ok (i, rest)) :
    (∃ ws, wordsOfBytes bs = encode i ++ ws ∧ decodeWords (wordsOfBytes bs) = .ok (i, ws)) ∧
      rest = bs.drop (Config.wordBytes * i.length) := by
  rw [decodeBytes] at h
  rcases decodeWords_cases (wordsOfBytes bs) with ⟨-, hd⟩ | ⟨_, _, -, -, hd⟩ | ⟨_, _, _, -, -, -, hd⟩ | ⟨j, ws, hw, hd⟩
  all_goals rw [hd] at h; cases h
  exact ⟨⟨ws, hw, hd⟩, rfl⟩

/-- Settles O12: the Words of the bytes fix the instruction, and the Words fix their bytes. -/
theorem bytesDecodeExactlyToWhatTheyEncode : Obligations.BytesDecodeExactlyToWhatTheyEncode := by
  refine fun i bs rest => ⟨fun h => ?_, fun h => h ▸ decodeBytes_encodeBytes i rest⟩
  obtain ⟨⟨ws, hw, -⟩, rfl⟩ := words_of_decodeBytes_ok h
  rw [← length_encode]
  exact eq_bytesOfWords_append_drop hw

/-- Settles O11: each listing is the image bytes of its instruction. -/
theorem listedBytesDecodeToTheirInstructions : Obligations.ListedBytesDecodeToTheirInstructions :=
  ⟨decodeBytes_encodeBytes .halt [], decodeBytes_encodeBytes (.add 1 2 0) [], decodeBytes_encodeBytes (.cmp 1 2 3) [],
    decodeBytes_encodeBytes (.jmp 0) [], decodeBytes_encodeBytes (.jmpc 1 0) [], decodeBytes_encodeBytes (.mov 7 9) [],
    decodeBytes_encodeBytes (.set 5 0) []⟩

end Sys2Proof

/-! What an instruction does, said once: its effect is one of four forms, which form it is follows from the checks in their
order, and only the registers and the pc decide it (40_execution_engine.md R69 to R76). -/

namespace Sys2Proof.Machine

/-- The effect of one instruction on the state it runs on. -/
inductive Effect where
  /-- It halts the engine. -/
  | halt
  /-- It aborts before any effect of its own. -/
  | abort (cause : AbortCause)
  /-- It completes and writes the pc alone. -/
  | jump (nextPc : Word)
  /-- It completes and writes one register and the pc. -/
  | write (k : Fin Config.numRegs) (v nextPc : Word)

/-- The state an effect leaves, by the model's own operations. -/
def Effect.apply : Effect → State → State
  | .halt, s => s.halt
  | .abort c, s => s.raiseAbort c
  | .jump p, s => s.complete p
  | .write k v p, s => (s.writeReg k v).complete p

@[simp] theorem Effect.apply_mem (e : Effect) (s : State) : (e.apply s).mem = s.mem := by cases e <;> rfl

/-- The effects by which the instruction `i` completes in the state `s`: a write goes to its destination register and is
followed by the sequential next pc (10_state.md R15, R20). -/
inductive Completes (i : Instr) (s : State) : Effect → Prop where
  | jump (p : Word) (hd : destination? i = none) : Completes i s (.jump p)
  | write (k : Fin Config.numRegs) (v w : Word) (hd : destination? i = some w) (hk : regIndex? w = some k) :
    Completes i s (.write k v (sequentialPc i.opcode s))

/-- The effect of the instruction `i` in the state `s`, with what holds where it is that one. -/
inductive EffectOf (i : Instr) (s : State) : Effect → Prop where
  | halt (hi : i = .halt) : EffectOf i s .halt
  | bound (hi : i.opcode ≠ .halt) (hb : OperandsOutOfBounds i.opcode s.pc) : EffectOf i s (.abort .operandsOutOfBounds)
  | index (hi : i.opcode ≠ .halt) (hb : ¬ OperandsOutOfBounds i.opcode s.pc) (hw : ¬ i.WellFormed) :
    EffectOf i s (.abort .regIndexOutOfRange)
  | complete {e : Effect} (hi : i.opcode ≠ .halt) (hb : ¬ OperandsOutOfBounds i.opcode s.pc) (hw : i.WellFormed)
    (he : Completes i s e) : EffectOf i s e

/-- The meaning `f` has one effect in every state with the registers and the pc of `s`: the register-index abort if one of
the operands `ws` names no register, and otherwise an effect that meets `P`. -/
def ChecksThen (s : State) (P : Effect → Prop) (ws : List Word) (f : State → Host.Outcome State Fault Refusal) : Prop :=
  ∃ e : Effect,
    ((¬ (∀ w ∈ ws, IsRegIndex w) ∧ e = .abort .regIndexOutOfRange) ∨ ((∀ w ∈ ws, IsRegIndex w) ∧ P e)) ∧
    ∀ s', s'.regs = s.regs → s'.pc = s.pc → f s' = .next (e.apply s')

section checksThen
variable {s : State} {P : Effect → Prop} {ws : List Word}

theorem checksThen_nil {e : Effect} {f : State → Host.Outcome State Fault Refusal} (he : P e)
    (hf : ∀ s', s'.regs = s.regs → s'.pc = s.pc → f s' = .next (e.apply s')) : ChecksThen s P [] f :=
  ⟨e, .inr ⟨fun _ hw => absurd hw List.not_mem_nil, he⟩, hf⟩

theorem isRegIndex_of_regIndex? {w : Word} {k : Fin Config.numRegs} (h : regIndex? w = some k) : IsRegIndex w := by
  by_contra hw
  rw [regIndex?_of_not_isRegIndex hw] at h
  cases h

theorem checksThen_withReg {w : RegOperand} {rest : Fin Config.numRegs → State → Host.Outcome State Fault Refusal}
    (h : ∀ k, regIndex? w = some k → ChecksThen s P ws (rest k)) :
    ChecksThen s P (w :: ws) (fun s' => withReg w s' (rest · s')) := by
  cases hw : regIndex? w with
  | none =>
    refine ⟨_, .inl ⟨fun hall => ?_, rfl⟩, fun s' _ _ => withReg_of_none hw⟩
    obtain ⟨k, hk⟩ := regIndex?_of_isRegIndex (hall w List.mem_cons_self)
    exact absurd (hw.symm.trans hk) nofun
  | some k =>
    obtain ⟨e, he, hf⟩ := h k hw
    refine ⟨e, ?_, fun s' hregs hpc => (withReg_of_some hw).trans (hf s' hregs hpc)⟩
    rwa [List.forall_mem_cons, and_iff_right (isRegIndex_of_regIndex? hw)]

theorem checksThen_withOperands {o : Opcode} {f : State → Host.Outcome State Fault Refusal}
    (hb : ¬ OperandsOutOfBounds o s.pc) (h : ChecksThen s P ws f) :
    ChecksThen s P ws (fun s' => withOperands o s' (f s')) := by
  obtain ⟨e, he, hf⟩ := h
  exact ⟨e, he, fun s' hregs hpc => (withOperands_of_fit (hpc ▸ hb)).trans (hf s' hregs hpc)⟩

end checksThen

theorem readReg_congr {s s' : State} (h : s'.regs = s.regs) (k : Fin Config.numRegs) : s'.readReg k = s.readReg k := by
  simp only [State.readReg, h]

theorem sequentialPc_congr {s s' : State} (h : s'.pc = s.pc) (o : Opcode) : sequentialPc o s' = sequentialPc o s := by
  simp only [sequentialPc, h]

/-- Past the operand-bound check, every instruction names its register operands and then completes (R71 to R74). -/
theorem exec_checksThen {i : Instr} {s : State} (hi : i.opcode ≠ .halt) (hb : ¬ OperandsOutOfBounds i.opcode s.pc) :
    ChecksThen s (Completes i s) i.regOperands (exec i) := by
  cases i with
  | halt => exact absurd rfl hi
  | add src value dst =>
    refine checksThen_withOperands hb <| checksThen_withReg fun f _ => checksThen_withReg fun t ht =>
      checksThen_nil (.write t (addWords (s.readReg f) (immediate value)) dst rfl ht) fun s' hregs hpc => ?_
    rw [readReg_congr hregs, sequentialPc_congr hpc]; rfl
  | cmp left right dst =>
    refine checksThen_withOperands hb <| checksThen_withReg fun l _ => checksThen_withReg fun r _ =>
      checksThen_withReg fun t ht =>
        checksThen_nil (.write t (compareWords (s.readReg l) (s.readReg r)) dst rfl ht) fun s' hregs hpc => ?_
    rw [readReg_congr hregs, readReg_congr hregs, sequentialPc_congr hpc]; rfl
  | jmp target =>
    refine checksThen_withOperands hb <| checksThen_withReg fun t _ =>
      checksThen_nil (.jump (s.readReg t) rfl) fun s' hregs _ => ?_
    rw [readReg_congr hregs]; rfl
  | jmpc target condition =>
    refine checksThen_withOperands hb <| checksThen_withReg fun t _ => checksThen_withReg fun c _ =>
      checksThen_nil (.jump (if IsTrue (s.readReg c) then s.readReg t else sequentialPc .jmpc s) rfl)
        fun s' hregs hpc => ?_
    rw [readReg_congr hregs, readReg_congr hregs, sequentialPc_congr hpc]; rfl
  | mov src dst =>
    refine checksThen_withOperands hb <| checksThen_withReg fun f _ => checksThen_withReg fun t ht =>
      checksThen_nil (.write t (s.readReg f) dst rfl ht) fun s' hregs hpc => ?_
    rw [readReg_congr hregs, sequentialPc_congr hpc]; rfl
  | set value dst =>
    refine checksThen_withOperands hb <| checksThen_withReg fun t ht =>
      checksThen_nil (.write t (immediate value) dst rfl ht) fun s' _ hpc => ?_
    rw [sequentialPc_congr hpc]; rfl

theorem opcode_eq_halt {i : Instr} : i.opcode = .halt ↔ i = .halt := by
  cases i <;> simp [Instr.opcode]

/-- Every instruction has one effect, in every state with the same registers and pc. -/
theorem exec_effect (i : Instr) (s : State) :
    ∃ e, EffectOf i s e ∧ ∀ s', s'.regs = s.regs → s'.pc = s.pc → exec i s' = .next (e.apply s') := by
  by_cases hi : i.opcode = .halt
  · obtain rfl := opcode_eq_halt.1 hi
    exact ⟨_, .halt rfl, fun _ _ _ => rfl⟩
  by_cases hb : OperandsOutOfBounds i.opcode s.pc
  · exact ⟨_, .bound hi hb, fun s' _ hpc => exec_of_bound hi (hpc ▸ hb)⟩
  obtain ⟨e, ⟨hw, rfl⟩ | ⟨hw, he⟩, hexec⟩ := exec_checksThen hi hb
  · exact ⟨_, .index hi hb (mt wellFormed_iff.1 hw), hexec⟩
  · exact ⟨_, .complete hi hb (wellFormed_iff.2 hw) he, hexec⟩

/-- Inversion of the meanings: the next state is that of the instruction's effect. -/
theorem effect_of_exec {i : Instr} {s t : State} (h : exec i s = .next t) : ∃ e, EffectOf i s e ∧ t = e.apply s := by
  obtain ⟨e, he, hexec⟩ := exec_effect i s
  rw [hexec s rfl rfl] at h
  cases h
  exact ⟨e, he, rfl⟩

end Sys2Proof.Machine

/-! What a step does, said once: the events of its fetch and then one effect, and which Words and which parts of the state
decide them (40_execution_engine.md R63 to R76). -/

namespace Sys2Proof.Machine

/-- The state with events appended to the output stream, in order. -/
def State.emits (s : State) (es : List Event) : State := { s with out := s.out ++ es }

section emits
variable (s : State) (es : List Event)

@[simp] theorem emits_regs : (s.emits es).regs = s.regs := rfl
@[simp] theorem emits_pc : (s.emits es).pc = s.pc := rfl
@[simp] theorem emits_runState : (s.emits es).runState = s.runState := rfl
@[simp] theorem emits_cycles : (s.emits es).cycles = s.cycles := rfl
@[simp] theorem emits_abortCause : (s.emits es).abortCause = s.abortCause := rfl
@[simp] theorem emits_out : (s.emits es).out = s.out ++ es := rfl
@[simp] theorem emits_mem : (s.emits es).mem = s.mem := rfl

theorem emits_nil : s.emits [] = s := by simp [State.emits]

theorem traceOpcode_eq_emits {op : Word} (h : IsBadOpcode op) : traceOpcode op s = s.emits [.trace op, .badOpcode op] := by
  simp [traceOpcode_of_bad h, State.emit, State.emits]

end emits

section stepForms
variable {s : State}

/-- An out-of-range pc aborts before the fetch (R64, R100). -/
theorem step_of_pcOutOfRange (hr : s.runState = .running) (hp : ¬ PcInRange s.pc) :
    step s = .next (s.raiseAbort .pcOutOfRange) := by
  have hf : fetch s = (s, .error .pcOutOfRange) := if_neg hp
  rw [step_of_fetch_error hr (congrArg Prod.snd hf), hf]

/-- An illegal opcode is traced and reported, and then it aborts (R66, R68). -/
theorem step_of_badOpcode (hr : s.runState = .running) (hp : PcInRange s.pc) (hbad : IsBadOpcode (fetchOpcode s)) :
    step s = .next ((s.emits [.trace (fetchOpcode s), .badOpcode (fetchOpcode s)]).raiseAbort .unfoundInstruction) := by
  have hf := fetch_of_badOpcode hp hbad
  rw [step_of_fetch_error hr (congrArg Prod.snd hf), hf, traceOpcode_eq_emits s hbad]

/-- An instruction whose Words stand at the pc is traced and runs (R65, R70, R72). -/
theorem step_of_words {i : Instr} (hr : s.runState = .running) (hp : PcInRange s.pc)
    (ho : fetchOpcode s = i.opcode.word) (hb : s.pc.toInt + (i.opcode.arity : Int) ≤ 255)
    (hw : s.mem.read (s.pc.toNat + 1) i.opcode.arity = i.operands) :
    step s = exec i (s.emit (.trace i.opcode.word)) := by
  have hf := fetch_of_words hp ho hb hw
  rw [step_of_fetch_ok hr (congrArg Prod.snd hf), hf]

end stepForms

/-- The second state gives a step the inputs that the first gives it: the run state, the registers, the pc, the opcode Word
and the operand Words of that opcode (R46). -/
structure SameInputs (s s' : State) : Prop where
  runState : s'.runState = s.runState
  regs : s'.regs = s.regs
  pc : s'.pc = s.pc
  opcode : s'.mem.readWord s.pc.toNat = s.mem.readWord s.pc.toNat
  operands : ∀ o : Opcode, s.mem.readWord s.pc.toNat = o.word →
    s'.mem.read (s.pc.toNat + 1) o.arity = s.mem.read (s.pc.toNat + 1) o.arity

theorem SameInputs.refl (s : State) : SameInputs s s := ⟨rfl, rfl, rfl, rfl, fun _ _ => rfl⟩

theorem SameInputs.fetchOpcode_eq {s s' : State} (h : SameInputs s s') : fetchOpcode s' = fetchOpcode s := by
  rw [fetchOpcode, h.pc, h.opcode, fetchOpcode]

/-- The fetch's events and the effect of a step from `s`, with what holds where they are those. -/
inductive StepEffect (s : State) : List Event → Effect → Prop where
  | pcOutOfRange (hp : ¬ PcInRange s.pc) : StepEffect s [] (.abort .pcOutOfRange)
  | badOpcode (hp : PcInRange s.pc) (hbad : IsBadOpcode (fetchOpcode s)) :
    StepEffect s [.trace (fetchOpcode s), .badOpcode (fetchOpcode s)] (.abort .unfoundInstruction)
  | bound {o : Opcode} (hp : PcInRange s.pc) (ho : fetchOpcode s = o.word) (hne : o ≠ .halt)
    (hb : OperandsOutOfBounds o s.pc) : StepEffect s [.trace o.word] (.abort .operandsOutOfBounds)
  | instr {i : Instr} {e : Effect} (hp : PcInRange s.pc) (ho : fetchOpcode s = i.opcode.word) (he : EffectOf i s e) :
    StepEffect s [.trace i.opcode.word] e

/-- A step from Running has one list of events and one effect, in every state with the same inputs. -/
theorem step_effect {s : State} (hr : s.runState = .running) :
    ∃ es e, StepEffect s es e ∧ ∀ s', SameInputs s s' → step s' = .next (e.apply (s'.emits es)) := by
  rcases fetch_cases s with ⟨hp, -⟩ | ⟨hp, hbad, -⟩ | ⟨hp, ⟨o, ho, hne, hlarge⟩, -⟩ | ⟨hp, i, ho, hb, hw, -⟩
  · refine ⟨_, _, .pcOutOfRange hp, fun s' hs => ?_⟩
    rw [step_of_pcOutOfRange (hs.runState.trans hr) (hs.pc ▸ hp), emits_nil]
    rfl
  · refine ⟨_, _, .badOpcode hp hbad, fun s' hs => ?_⟩
    rw [step_of_badOpcode (hs.runState.trans hr) (hs.pc ▸ hp) (hs.fetchOpcode_eq ▸ hbad), hs.fetchOpcode_eq]
    rfl
  · have hbound : OperandsOutOfBounds o s.pc := by
      simp only [OperandsOutOfBounds, Config.memSpace]
      omega
    exact ⟨_, _, .bound hp ho hne hbound, fun s' hs => step_of_bound (hs.runState.trans hr) (hs.pc ▸ hp)
      (hs.fetchOpcode_eq.trans ho) hne (hs.pc ▸ hbound)⟩
  · obtain ⟨e, he, hexec⟩ := exec_effect i s
    refine ⟨_, e, .instr hp ho he, fun s' hs => ?_⟩
    rw [step_of_words (hs.runState.trans hr) (hs.pc ▸ hp) (hs.fetchOpcode_eq.trans ho) (hs.pc ▸ hb)
      (hs.pc ▸ (hs.operands _ ho).trans hw)]
    exact hexec _ hs.regs hs.pc

/-- Inversion of the step: it starts Running, emits the fetch's events and has one effect, the same from every state with
the same inputs. -/
theorem effect_of_step {s t : State} (h : step s = .next t) :
    s.runState = .running ∧ ∃ es e, StepEffect s es e ∧ t = e.apply (s.emits es) ∧
      ∀ s', SameInputs s s' → step s' = .next (e.apply (s'.emits es)) := by
  obtain ⟨hr, -⟩ := step_cases h
  obtain ⟨es, e, he, hstep⟩ := step_effect hr
  have hself := hstep s (.refl s)
  rw [h] at hself
  injection hself with hself
  exact ⟨hr, es, e, he, hself, hstep⟩

end Sys2Proof.Machine

/-! The invariant of a run (10_state.md R25, R26; 40_execution_engine.md R79). -/

namespace Sys2Proof.Machine

theorem isExecutableOpcode_word {o : Opcode} (h : o ≠ .halt) : IsExecutableOpcode o.word := by
  cases o with
  | halt => exact absurd rfl h
  | add | cmp | jmp | jmpc | mov | set => decide

section runInvariant
variable {s t : State}

/-- While Running there is no abort cause, and the output stream is the completed cycles' traces alone. -/
theorem RunInvariant.of_running (h : RunInvariant s) (hr : s.runState = .running) :
    s.abortCause = none ∧ ∃ ops : List Word, s.out = ops.map Event.trace ∧ ops.length = s.cycles ∧
      ∀ op ∈ ops, IsExecutableOpcode op := by
  obtain ⟨ops, es, hout, hlen, hops, hend⟩ := h.out
  obtain rfl : es = [] := by simpa only [EndEvents, hr] using hend
  refine ⟨?_, ops, by simpa using hout, hlen, hops⟩
  by_contra hc
  exact absurd (hr.symm.trans (h.status.1.1 hc)) nofun

theorem runInvariant_abort (h : RunInvariant s) (hr : s.runState = .running) {c : AbortCause} {es : List Event}
    (hes : AbortEvents c s.cycles (es ++ [.abortedAt c s.cycles])) : RunInvariant ((s.emits es).raiseAbort c) := by
  obtain ⟨-, ops, hout, hlen, hops⟩ := h.of_running hr
  exact ⟨h.mem, by simp [StatusConsistent], ops, es ++ [Event.abortedAt c s.cycles], by simp [hout], hlen, hops, c, rfl,
    hes⟩

theorem runInvariant_halt (h : RunInvariant s) (hr : s.runState = .running) (hp : PcInRange s.pc)
    (ho : fetchOpcode s = Opcode.halt.word) : RunInvariant (s.emits [.trace Opcode.halt.word]).halt := by
  obtain ⟨hcause, ops, hout, hlen, hops⟩ := h.of_running hr
  exact ⟨h.mem, ⟨by simp [hcause], fun _ => ⟨hp, ho⟩⟩, ops, [.trace Opcode.halt.word, .haltedAt s.cycles], by simp [hout],
    hlen, hops, rfl⟩

/-- A completed cycle adds one `Trace` and one to the count. -/
theorem runInvariant_complete (h : RunInvariant s) (hr : s.runState = .running) {op : Word} (hop : IsExecutableOpcode op)
    (hmem : t.mem = s.mem) (hrun : t.runState = s.runState) (hcause : t.abortCause = s.abortCause)
    (hout : t.out = s.out ++ [.trace op]) (hcycles : t.cycles = s.cycles + 1) : RunInvariant t := by
  obtain ⟨hnone, ops, hops, hlen, hall⟩ := h.of_running hr
  refine ⟨hmem ▸ h.mem, by simp [StatusConsistent, hcause, hnone, hrun, hr], ops ++ [op], [], ?_, ?_, ?_, ?_⟩
  · simp [hout, hops]
  · simp [hlen, hcycles]
  · exact List.forall_mem_append.2 ⟨hall, List.forall_mem_singleton.2 hop⟩
  · simp [EndEvents, hrun, hr]

end runInvariant

/-- Settles O47: each form of a step's events and effect keeps the invariant. -/
theorem everyStepKeepsTheInvariant : Obligations.EveryStepKeepsTheInvariant := by
  intro s t hinv h
  obtain ⟨hr, es, e, hstep, rfl, -⟩ := effect_of_step h
  cases hstep with
  | pcOutOfRange => exact runInvariant_abort hinv hr rfl
  | badOpcode _ hbad => exact runInvariant_abort hinv hr ⟨_, hbad, rfl⟩
  | bound _ _ hne => exact runInvariant_abort hinv hr ⟨_, isExecutableOpcode_word hne, rfl⟩
  | instr hp ho he =>
    cases he with
    | halt hi =>
      subst hi
      exact runInvariant_halt hinv hr hp ho
    | bound hi | index hi => exact runInvariant_abort hinv hr ⟨_, isExecutableOpcode_word hi, rfl⟩
    | complete hi _ _ hc =>
      have hop := isExecutableOpcode_word hi
      cases hc <;> exact runInvariant_complete hinv hr hop rfl rfl rfl rfl rfl

end Sys2Proof.Machine

/-! Memory at the level of Words: what a write is seen by, and the canonical form read back (20_memory.md R30, R34). -/

namespace Sys2Proof.Machine

/-- A Word read after a Word write: the Word written, or what was there. -/
theorem Memory.readWord_writeWord {m : Memory} (h : m.wf) {k : Nat} (hk : k < Config.memSpace) (j : Nat) (w : Word) :
    (m.writeWord k w).readWord j = if j = k then w else m.readWord j := by
  have hlow : (m.writeByte (Config.wordBytes * k) (lowByte w)).wf :=
    Memory.writeByte_wf h (Nat.mul_lt_mul_of_pos_left hk (by decide))
  simp only [Memory.readWord, Memory.writeWord, Memory.readByte_writeByte hlow, Memory.readByte_writeByte h]
  simp only [Config.wordBytes]
  by_cases hj : j = k
  · subst hj
    simp [wordOfBytes_low_high]
  · simp [hj, show ¬ 2 * j = 2 * k + 1 by omega, show ¬ 2 * j + 1 = 2 * k by omega]

/-- Settles O7: the read after a write, at any cell. -/
theorem cellReadsTheWordLastWritten : Obligations.CellReadsTheWordLastWritten :=
  fun _ j _ w h hk => Memory.readWord_writeWord h hk j w

theorem Memory.readByte_cons_self (c : Host.Cell) (m : Memory) : Memory.readByte (c :: m) c.1 = c.2 := if_pos rfl

theorem Memory.readByte_cons_ne {c : Host.Cell} {a : Nat} (h : c.1 ≠ a) (m : Memory) :
    Memory.readByte (c :: m) a = m.readByte a := if_neg h

/-- A canonical Memory does not read like one that lists only addresses above its first one. -/
theorem Memory.readByte_ne_of_lt {c : Host.Cell} {m m' : Memory} (h : Memory.wf (c :: m)) (hlt : ∀ d ∈ m', c.1 < d.1) :
    Memory.readByte (c :: m) c.1 ≠ m'.readByte c.1 := by
  rw [Memory.readByte_cons_self, Memory.readByte_of_lt hlt]
  exact (h.2 c List.mem_cons_self).1

/-- The first address of a canonical Memory is below the others. -/
theorem Memory.lt_of_wf_cons {c : Host.Cell} {m : Memory} (h : Memory.wf (c :: m)) : ∀ d ∈ m, c.1 < d.1 :=
  (List.pairwise_cons.1 h.1).1

/-- Canonical memories that read the same bytes list the same cells. -/
theorem Memory.eq_of_readByte_eq {m m' : Memory} (h : m.wf) (h' : m'.wf) (heq : ∀ a, m.readByte a = m'.readByte a) :
    m = m' := by
  induction m generalizing m' with
  | nil =>
    cases m' with
    | nil => rfl
    | cons d m' => exact absurd (heq d.1).symm (Memory.readByte_ne_of_lt h' (by simp))
  | cons c m ih =>
    cases m' with
    | nil => exact absurd (heq c.1) (Memory.readByte_ne_of_lt h (by simp))
    | cons d m' =>
      have hm := Memory.lt_of_wf_cons h
      have hm' := Memory.lt_of_wf_cons h'
      rcases Nat.lt_trichotomy c.1 d.1 with hlt | haddr | hlt
      · exact absurd (heq c.1) (Memory.readByte_ne_of_lt h (List.forall_mem_cons.2 ⟨hlt, fun e he => hlt.trans (hm' e he)⟩))
      · have hbyte := heq c.1
        rw [Memory.readByte_cons_self, haddr, Memory.readByte_cons_self] at hbyte
        obtain rfl : c = d := Prod.ext haddr hbyte
        refine congrArg (c :: ·) (ih (Memory.wf_tail h) (Memory.wf_tail h') fun a => ?_)
        by_cases ha : c.1 = a
        · rw [← ha, Memory.readByte_of_lt hm, Memory.readByte_of_lt hm']
        · rw [← Memory.readByte_cons_ne ha, heq, Memory.readByte_cons_ne ha]
      · exact absurd (heq d.1).symm
          (Memory.readByte_ne_of_lt h' (List.forall_mem_cons.2 ⟨hlt, fun e he => hlt.trans (hm e he)⟩))

theorem Memory.readByte_of_size_le {m : Memory} (h : m.wf) {a : Nat} (ha : Config.wordBytes * Config.memSpace ≤ a) :
    m.readByte a = Memory.unlisted := by
  induction m with
  | nil => rfl
  | cons c m ih =>
    have hc := (h.2 c List.mem_cons_self).2
    rw [Memory.readByte_cons_ne (by omega), ih (Memory.wf_tail h)]

/-- The Word of a cell has both of the cell's bytes. -/
theorem Memory.readByte_eq_of_readWord_eq {m m' : Memory} {k : Nat} (h : m.readWord k = m'.readWord k) :
    m.readByte (2 * k) = m'.readByte (2 * k) ∧ m.readByte (2 * k + 1) = m'.readByte (2 * k + 1) := by
  have hlow := congrArg lowByte h
  have hhigh := congrArg highByte h
  simp only [Memory.readWord, lowByte_wordOfBytes, highByte_wordOfBytes] at hlow hhigh
  exact ⟨hlow, hhigh⟩

/-- Settles O8: equal Words are equal bytes below 512, and no canonical Memory lists an address above. -/
theorem canonicalMemoriesThatReadAlikeAreEqual : Obligations.CanonicalMemoriesThatReadAlikeAreEqual := by
  intro m m' h h' heq
  refine Memory.eq_of_readByte_eq h h' fun a => ?_
  by_cases ha : a < 512
  · obtain ⟨hlow, hhigh⟩ := Memory.readByte_eq_of_readWord_eq (heq (a / 2) (by omega))
    obtain h2 | h2 := Nat.mod_two_eq_zero_or_one a
    · rwa [show 2 * (a / 2) = a by omega] at hlow
    · rwa [show 2 * (a / 2) + 1 = a by omega] at hhigh
  · have hsize : Config.wordBytes * Config.memSpace ≤ a := Nat.le_of_not_lt ha
    rw [Memory.readByte_of_size_le h hsize, Memory.readByte_of_size_le h' hsize]

theorem Memory.readWord_write_of_lt {m : Memory} {addr k : Nat} {ws : List Word} (h : m.wf)
    (hsize : addr + ws.length ≤ Config.memSpace) (hk : k < addr) : (m.write addr ws).readWord k = m.readWord k := by
  induction ws generalizing m addr with
  | nil => rfl
  | cons w ws ih =>
    rw [List.length_cons] at hsize
    have haddr : addr < Config.memSpace := by omega
    rw [Memory.write, ih (Memory.writeWord_wf h haddr) (by omega) (by omega), Memory.readWord_writeWord h haddr,
      if_neg (by omega)]

/-- A block write is seen by a read from its first cell on: the block's Word, or what was there (R128). -/
theorem Memory.readWord_write_add {m : Memory} {addr : Nat} {ws : List Word} (h : m.wf)
    (hsize : addr + ws.length ≤ Config.memSpace) (k : Nat) :
    (m.write addr ws).readWord (addr + k) = ws[k]?.getD (m.readWord (addr + k)) := by
  induction ws generalizing m addr k with
  | nil => rfl
  | cons w ws ih =>
    rw [List.length_cons] at hsize
    have haddr : addr < Config.memSpace := by omega
    have hwf := Memory.writeWord_wf (w := w) h haddr
    cases k with
    | zero =>
      rw [Memory.write, Memory.readWord_write_of_lt hwf (by omega) (by omega), Memory.readWord_writeWord h haddr]
      simp
    | succ k =>
      rw [Memory.write, show addr + (k + 1) = addr + 1 + k by omega, ih hwf (by omega), Memory.readWord_writeWord h haddr,
        if_neg (by omega), List.getElem?_cons_succ]

/-- A block reads back as it was written. -/
theorem Memory.read_write {m : Memory} {addr : Nat} {ws : List Word} (h : m.wf)
    (hsize : addr + ws.length ≤ Config.memSpace) : (m.write addr ws).read addr ws.length = ws := by
  refine List.ext_getElem? fun k => ?_
  rw [Memory.getElem?_read, Memory.readWord_write_add h hsize]
  by_cases hk : k < ws.length <;> simp [hk]

end Sys2Proof.Machine

/-! The instruction at the pc and the placing of one (40_execution_engine.md R65, R70, R72; log entries 3 and 4). -/

namespace Sys2Proof

theorem wordsOfBytes_bytesOfWords (ws : List Word) : wordsOfBytes (bytesOfWords ws) = ws := by
  simpa [wordsOfBytes] using wordsOfBytes_bytesOfWords_append ws []

/-- A table row is decoded from its Words. -/
theorem decodeWords_of_decodeTableWord {nbits w : Nat} {i : Instr} (h : decodeTableWord nbits w = some i) :
    ∃ rest, decodeWords (tableWords nbits w) = .ok (i, rest) := by
  rw [decodeTableWord] at h
  cases hd : decodeBytes (bytesOfWords (tableWords nbits w)) with
  | error e => simp [hd] at h
  | ok r =>
    obtain ⟨j, bs⟩ := r
    obtain rfl : j = i := by simpa [hd] using h
    obtain ⟨⟨ws, -, hws⟩, -⟩ := words_of_decodeBytes_ok hd
    rw [wordsOfBytes_bytesOfWords] at hws
    exact ⟨ws, hws⟩

end Sys2Proof

namespace Sys2Proof.Machine

/-- The step runs what the decoder reads from the Words at an in-range pc. -/
theorem step_of_decodeWords {s : State} {i : Instr} {rest : List Word} (hr : s.runState = .running) (hp : PcInRange s.pc)
    (h : decodeWords (fetchWords s) = .ok (i, rest)) : step s = exec i (s.emit (.trace i.opcode.word)) := by
  have hf : (fetch s).2 = .ok i := by simp only [fetch, if_pos hp, h]
  obtain ⟨-, ho, hb, hw⟩ := words_of_fetch_ok hf
  exact step_of_words hr hp ho hb hw

/-- Settles O15: the Words of the statement are those the decoder sees. -/
theorem stepRunsTheDecodedInstruction : Obligations.StepRunsTheDecodedInstruction :=
  fun _ _ _ hr hp h => step_of_decodeWords hr hp h

/-- Settles O16: the encoding is the opcode Word and then the operand Words. -/
theorem encodedInstructionAtThePcRuns : Obligations.EncodedInstructionAtThePcRuns := by
  intro s i hr hlow hb hw
  rw [Instr.length, Nat.add_comm, Memory.read_succ, encode, List.cons.injEq] at hw
  obtain ⟨ho, hoperands⟩ := hw
  exact step_of_words hr ⟨hlow, by simp only [Config.memSpace]; omega⟩ ho hb hoperands

theorem length_tableWords (nbits w : Nat) : (tableWords nbits w).length = Config.longestInstr := by
  rw [tableWords, List.length_map, List.length_range]

/-- At a pc whose next three cells exist, the decoder sees the stored Words and no others. -/
theorem fetchWords_withFetchWord {s : State} (hwf : s.mem.wf)
    (hfit : s.pc.toNat + Config.longestInstr ≤ Config.memSpace) (nbits w : Nat) :
    fetchWords (s.withFetchWord nbits w) = tableWords nbits w := by
  have hlen := length_tableWords nbits w
  have hroom : Config.longestInstr ≤ Config.memSpace - s.pc.toNat := by omega
  have hread := Memory.read_write hwf (hlen ▸ hfit)
  rw [hlen] at hread
  simpa only [fetchWords, State.withFetchWord, List.take_of_length_le (hlen ▸ hroom), Nat.min_eq_left hroom] using hread

/-- Settles O17: the stored Words are read back whole, and they decode as the table row does. -/
theorem storedTableWordIsTheNextInstructionRun : Obligations.StoredTableWordIsTheNextInstructionRun := by
  intro s nbits w i hwf hr hlow hhigh h
  have hp : PcInRange s.pc := ⟨hlow, by simp only [Config.memSpace]; omega⟩
  have hpc := pc_toNat hp
  have hfit : s.pc.toNat + Config.longestInstr ≤ Config.memSpace := by
    simp only [Config.longestInstr, Config.memSpace]
    omega
  obtain ⟨rest, hdecode⟩ := decodeWords_of_decodeTableWord h
  exact step_of_decodeWords (s := s.withFetchWord nbits w) hr hp
    ((congrArg decodeWords (fetchWords_withFetchWord hwf hfit nbits w)).trans hdecode)

end Sys2Proof.Machine

/-! The load, the launch and what the host reads (70_reset_and_hazards.md R123 to R132). -/

namespace Sys2Proof

/-- The Words of an image: Word `k` is the pair of bytes `2k` and `2k + 1`, as far as both exist (R35). -/
theorem getElem?_wordsOfBytes_of_lt {bs : List Byte} {k : Nat} (h : 2 * k + 1 < bs.length) :
    (wordsOfBytes bs)[k]? = some (wordOfBytes bs[2 * k] bs[2 * k + 1]) := by
  induction k generalizing bs with
  | zero =>
    match bs, h with
    | lo :: hi :: rest, _ => rfl
  | succ k ih =>
    match bs, h with
    | lo :: hi :: rest, h =>
      simp only [List.length_cons] at h
      exact ih (bs := rest) (by omega)

theorem two_mul_length_wordsOfBytes (bs : List Byte) : 2 * (wordsOfBytes bs).length = bs.length - bs.length % 2 := by
  induction bs using wordsOfBytes.induct with
  | case1 lo hi rest ih =>
    simp only [wordsOfBytes, List.length_cons]
    omega
  | case2 b => rfl
  | case3 => rfl

theorem toNat_wordOfBytes (lo hi : Byte) : (wordOfBytes lo hi).toNat = lo.toNat + 256 * hi.toNat := by
  have := lo.isLt
  have := hi.isLt
  rw [wordOfBytes, BitVec.toNat_ofNat, Nat.mod_eq_of_lt (by omega)]

end Sys2Proof

namespace Sys2Proof.Machine

section loadedMemory
variable {image : List Byte}

theorem length_wordsOfBytes_le (hsize : image.length ≤ Config.maxImageBytes) :
    (wordsOfBytes image).length ≤ Config.memSpace := by
  have hlen := two_mul_length_wordsOfBytes image
  simp only [Config.maxImageBytes, Config.memSpace, Config.wordBytes] at hsize ⊢
  omega

/-- An image that loads is written from cell 0 into an empty Memory, and it fits. -/
theorem loadImage_ok_wf {m : Memory} (h : loadImage image = .ok m) : m.wf := by
  by_cases hodd : image.length % Config.wordBytes = 0
  · by_cases hsize : image.length ≤ Config.maxImageBytes
    · rw [loadImage_of_fits hodd hsize] at h
      cases h
      exact Memory.write_wf reset_mem_wf (by simpa using length_wordsOfBytes_le hsize)
    · rw [loadImage_of_oversized hodd (Nat.lt_of_not_le hsize)] at h
      cases h
  · rw [loadImage_of_odd hodd] at h
    cases h

/-- A loaded cell reads the image's Word of its index, or 0 beyond the image (R128). -/
theorem readWord_loaded (hsize : image.length ≤ Config.maxImageBytes) (k : Nat) :
    (Memory.write State.reset.mem 0 (wordsOfBytes image)).readWord k = (wordsOfBytes image)[k]?.getD 0x0000#16 := by
  have h := Memory.readWord_write_add reset_mem_wf (addr := 0) (by simpa using length_wordsOfBytes_le hsize) k
  simpa [State.reset] using h

end loadedMemory

/-- Settles O3: the copy read back cell by cell. -/
theorem loadCopiesTheImageIntoMemoryFromCellZero : Obligations.LoadCopiesTheImageIntoMemoryFromCellZero := by
  intro image heven hsize
  have hload := loadImage_of_fits heven hsize
  refine ⟨_, hload, loadImage_ok_wf hload, fun k hk => ?_, fun k hk => ?_⟩
  · rw [readWord_loaded hsize, getElem?_wordsOfBytes_of_lt hk, Option.getD_some, toNat_wordOfBytes]
  · have hlen := two_mul_length_wordsOfBytes image
    rw [readWord_loaded hsize, List.getElem?_eq_none (by omega), Option.getD_none]

theorem launch_of_error {image : List Byte} {e : LoadError} (h : loadImage image = .error e) :
    State.launch image = .error e := by rw [State.launch, h]

theorem launch_of_ok {image : List Byte} {m : Memory} (h : loadImage image = .ok m) :
    State.launch image = .ok { State.reset with mem := m } := by rw [State.launch, h]

/-- Settles O4: the launch is decided by the load. -/
theorem launchIsResetWithTheLoadedMemory : Obligations.LaunchIsResetWithTheLoadedMemory :=
  fun _ => ⟨fun _ => launch_of_error, fun _ h => ⟨_, launch_of_ok h, rfl, rfl, rfl, rfl, rfl, rfl, rfl⟩⟩

/-- Settles O5: the dump is the list of Words the registers are read from. -/
theorem dumpListsEveryRegisterInIndexOrder : Obligations.DumpListsEveryRegisterInIndexOrder :=
  fun s => ⟨s.regs.length_words, fun _ => List.getElem?_eq_getElem _⟩

/-- Settles O6: the numbers by definition, an abort's through the cause it records. -/
theorem statusCodesAreTheSpecsNumbers : Obligations.StatusCodesAreTheSpecsNumbers :=
  ⟨rfl, rfl, rfl, rfl, fun _ => ⟨rfl, rfl, rfl, rfl⟩⟩

/-- Reset with any canonical Memory meets the invariant: nothing has been traced and nothing counted. -/
theorem runInvariant_reset_with {m : Memory} (h : m.wf) : RunInvariant { State.reset with mem := m } where
  mem := h
  status := by simp [StatusConsistent, State.reset]
  out := ⟨[], [], rfl, rfl, by simp, rfl⟩

/-- Settles O45: reset is the case of the empty Memory. -/
theorem invariantHoldsAtReset : Obligations.InvariantHoldsAtReset := runInvariant_reset_with Memory.wf_nil

/-- Settles O46: a launch is reset with a loaded Memory, which is canonical. -/
theorem invariantHoldsAtEveryLaunch : Obligations.InvariantHoldsAtEveryLaunch := by
  intro image s h
  cases hload : loadImage image with
  | error e =>
    rw [launch_of_error hload] at h
    cases h
  | ok m =>
    rw [launch_of_ok hload] at h
    cases h
    exact runInvariant_reset_with (loadImage_ok_wf hload)

end Sys2Proof.Machine

/-! The instructions: ADD's sum, CMP's comparison, the register an operand names, and what each instruction completes with
(41_data_instructions.md, 42_control_instructions.md, 30_encoding.md R52). -/

namespace Sys2Proof.Machine

/-- The wrapped sum of the signed values is the addition of the patterns (R86). -/
theorem addWords_eq_add (a b : Word) : addWords a b = a + b := by
  rw [addWords, BitVec.ofInt_add, BitVec.ofInt_toInt, BitVec.ofInt_toInt]

/-- Settles O43: the laws of 16-bit addition. -/
theorem wrappedSumIsPatternAdditionAndCancels : Obligations.WrappedSumIsPatternAdditionAndCancels := by
  intro a b
  simp only [addWords_eq_add]
  refine ⟨BitVec.toNat_add a b, BitVec.add_zero a, ?_, ?_⟩
  · rw [BitVec.ofInt_neg, BitVec.ofInt_toInt, BitVec.add_assoc, BitVec.add_right_neg, BitVec.add_zero]
  · rw [BitVec.add_assoc, show (0x8000#16 + 0x8000#16 : Word) = 0#16 by decide, BitVec.add_zero]

/-- The signed value of CMP's result is the sign of the difference (R87). -/
theorem compareWords_toInt (a b : Word) :
    (compareWords a b).toInt = if a.toInt < b.toInt then -1 else if a.toInt = b.toInt then 0 else 1 := by
  rw [compareWords]
  split_ifs <;> rfl

/-- Settles O44: the three orders of the signed values, which are equal exactly for equal patterns. -/
theorem comparisonIsATotalOrderTest : Obligations.ComparisonIsATotalOrderTest := by
  intro a b
  have hzero : compareWords a b = 0x0000#16 ↔ (compareWords a b).toInt = 0 := BitVec.toInt_inj.symm
  rw [hzero, ← BitVec.toInt_inj, compareWords_toInt, compareWords_toInt]
  obtain h | h | h := lt_trichotomy a.toInt b.toInt
  · simp [h, h.ne, h.ne', h.not_gt]
  · simp [h]
  · simp [h, h.ne', h.not_gt]

theorem toInt_eq_iff_eq_regWord {w : Word} {i : Fin Config.numRegs} : w.toInt = (i.val : Int) ↔ w = regWord i := by
  rw [← regWord_toInt, BitVec.toInt_inj]

theorem regIndex?_eq_some {w : Word} {i : Fin Config.numRegs} : regIndex? w = some i ↔ w.toInt = (i.val : Int) := by
  constructor
  · intro h
    have hw := isRegIndex_of_regIndex? h
    rw [regIndex?, dif_pos hw] at h
    cases h
    exact (Int.toNat_of_nonneg hw.1).symm
  · intro h
    rw [toInt_eq_iff_eq_regWord.1 h, regIndex?_regWord]

theorem regIndex?_eq_none {w : Word} : regIndex? w = none ↔ ¬ IsRegIndex w := by
  refine ⟨fun h hw => ?_, regIndex?_of_not_isRegIndex⟩
  obtain ⟨i, hi⟩ := regIndex?_of_isRegIndex hw
  exact absurd (h.symm.trans hi) nofun

/-- Settles O14: an operand is compared by its whole signed value. -/
theorem registerOperandNamesExactlyOneRegister : Obligations.RegisterOperandNamesExactlyOneRegister := by
  refine fun w => ⟨fun i => regIndex?_eq_some, fun i => toInt_eq_iff_eq_regWord, regIndex?_eq_none.trans ?_⟩
  rw [not_and_or, Int.not_le, Int.not_lt]
  rfl

/-- Past the operand-bound check a sequential advance is by the Words of the instruction (R46, R72). -/
theorem sequentialPc_toInt_add_length {o : Opcode} {s : State} (hp : PcInRange s.pc) (hb : ¬ OperandsOutOfBounds o s.pc) :
    (sequentialPc o s).toInt = s.pc.toInt + ((1 + o.arity : Nat) : Int) := by
  rw [sequentialPc_toInt hp.1 hb]
  omega

section completion
variable {s : State}

theorem exec_add (src dst : Fin Config.numRegs) (value : Word) (hb : ¬ OperandsOutOfBounds .add s.pc) :
    exec (.add (regWord src) value (regWord dst)) s =
      .next ((s.writeReg dst (addWords (s.readReg src) value)).complete (sequentialPc .add s)) := by
  simp [exec, execAdd, withOperands_of_fit hb, immediate]

theorem exec_cmp (left right dst : Fin Config.numRegs) (hb : ¬ OperandsOutOfBounds .cmp s.pc) :
    exec (.cmp (regWord left) (regWord right) (regWord dst)) s =
      .next ((s.writeReg dst (compareWords (s.readReg left) (s.readReg right))).complete (sequentialPc .cmp s)) := by
  simp [exec, execCmp, withOperands_of_fit hb]

theorem exec_mov (src dst : Fin Config.numRegs) (hb : ¬ OperandsOutOfBounds .mov s.pc) :
    exec (.mov (regWord src) (regWord dst)) s =
      .next ((s.writeReg dst (s.readReg src)).complete (sequentialPc .mov s)) := by
  simp [exec, execMov, withOperands_of_fit hb]

theorem exec_set (value : Word) (dst : Fin Config.numRegs) (hb : ¬ OperandsOutOfBounds .set s.pc) :
    exec (.set value (regWord dst)) s = .next ((s.writeReg dst value).complete (sequentialPc .set s)) := by
  simp [exec, execSet, withOperands_of_fit hb, immediate]

theorem exec_jmp (target : Fin Config.numRegs) (hb : ¬ OperandsOutOfBounds .jmp s.pc) :
    exec (.jmp (regWord target)) s = .next (s.complete (s.readReg target)) := by
  simp [exec, execJmp, withOperands_of_fit hb]

theorem exec_jmpc (target condition : Fin Config.numRegs) (hb : ¬ OperandsOutOfBounds .jmpc s.pc) :
    exec (.jmpc (regWord target) (regWord condition)) s =
      .next (s.complete (if IsTrue (s.readReg condition) then s.readReg target else sequentialPc .jmpc s)) := by
  simp only [exec, execJmpc, withOperands_of_fit hb, withReg_regWord]

theorem isTrue_iff {w : Word} : IsTrue w ↔ w.toInt ≠ 0 := not_congr BitVec.toInt_inj.symm

theorem unchangedBut_write (k : Fin Config.numRegs) (v p : Word) :
    UnchangedBut (some k) s ((s.writeReg k v).complete p) :=
  ⟨fun _ hj => readReg_writeReg_ne s k v fun h => hj (congrArg some h), fun _ => rfl, rfl, rfl, rfl⟩

theorem unchangedBut_jump (p : Word) : UnchangedBut none s (s.complete p) :=
  ⟨fun _ _ => rfl, fun _ => rfl, rfl, rfl, rfl⟩

end completion

/-- Settles O32: the sum's signed value is the true sum up to a multiple of 65536. -/
theorem addWritesTheWrappedSum : Obligations.AddWritesTheWrappedSum := by
  rintro s src dst value ⟨-, hp, hb⟩
  refine ⟨_, exec_add src dst value hb, ?_, sequentialPc_toInt_add_length hp hb, rfl, unchangedBut_write ..⟩
  rw [complete_readReg, readReg_writeReg_self, addWords, BitVec.toInt_ofInt]
  exact Int.bmod_emod

/-- Settles O33: the result's signed value by the order of the operands. -/
theorem cmpWritesTheSignedComparison : Obligations.CmpWritesTheSignedComparison := by
  rintro s left right dst ⟨-, hp, hb⟩
  refine ⟨_, exec_cmp left right dst hb, ?_⟩
  rw [complete_readReg, readReg_writeReg_self, compareWords_toInt]
  refine ⟨fun h => if_pos h, fun h => ?_, fun h => ?_, sequentialPc_toInt_add_length hp hb, rfl, unchangedBut_write ..⟩
  · rw [if_neg h.not_lt, if_pos h]
  · rw [if_neg h.le.not_gt, if_neg h.ne']

/-- Settles O34: the source is read before the destination is written. -/
theorem movCopiesTheRegister : Obligations.MovCopiesTheRegister := by
  rintro s src dst ⟨-, hp, hb⟩
  exact ⟨_, exec_mov src dst hb, readReg_writeReg_self .., sequentialPc_toInt_add_length hp hb, rfl, unchangedBut_write ..⟩

/-- Settles O35: the immediate is the whole operand Word. -/
theorem setLoadsTheImmediate : Obligations.SetLoadsTheImmediate := by
  rintro s value dst ⟨-, hp, hb⟩
  exact ⟨_, exec_set value dst hb, readReg_writeReg_self .., sequentialPc_toInt_add_length hp hb, rfl, unchangedBut_write ..⟩

/-- Settles O36: nothing is added to the register's value. -/
theorem jmpLandsExactlyOnTheRegisterValue : Obligations.JmpLandsExactlyOnTheRegisterValue := by
  rintro s target ⟨-, -, hb⟩
  exact ⟨_, exec_jmp target hb, rfl, rfl, unchangedBut_jump _⟩

/-- Settles O37: the truth of the condition selects the next pc. -/
theorem jmpcJumpsOnNonzeroAndElseFallsThrough : Obligations.JmpcJumpsOnNonzeroAndElseFallsThrough := by
  rintro s target condition ⟨-, hp, hb⟩
  refine ⟨_, exec_jmpc target condition hb, fun h => if_pos (isTrue_iff.2 h), fun h => ?_, rfl, unchangedBut_jump _⟩
  rw [complete_pc, if_neg (mt isTrue_iff.1 (not_not.2 h))]
  exact sequentialPc_toInt_add_length hp hb

/-- Settles O38: HALT's meaning is the halt of the engine. -/
theorem haltStopsTheEngineAndNothingElse : Obligations.HaltStopsTheEngineAndNothingElse := fun _ => rfl

/-- Settles O39: the operand-bound check of each instruction comes first. -/
theorem instructionTooCloseToTheEndAborts : Obligations.InstructionTooCloseToTheEndAborts :=
  fun _ _ hi hb => exec_of_bound (mt opcode_eq_halt.1 hi) hb

/-- An ill-formed instruction past the operand-bound check has the register-index abort as its one effect. -/
theorem exec_of_illFormed {i : Instr} {s : State} (hw : ¬ i.WellFormed) (hb : ¬ OperandsOutOfBounds i.opcode s.pc) :
    exec i s = .next (s.raiseAbort .regIndexOutOfRange) := by
  obtain ⟨e, he, hexec⟩ := exec_effect i s
  cases he with
  | halt hi => exact absurd (hi ▸ rfl) hw
  | bound _ h => exact absurd h hb
  | index => exact hexec s rfl rfl
  | complete _ _ h => exact absurd h hw

/-- Settles O40: every position is checked before any effect. -/
theorem illFormedInstructionAbortsWithNoEffect : Obligations.IllFormedInstructionAbortsWithNoEffect :=
  fun _ _ hw hb => exec_of_illFormed hw (Int.not_le.2 hb)

/-- An instruction that completes writes no register but its destination. -/
theorem Completes.readReg_eq {i : Instr} {s : State} {e : Effect} (h : Completes i s e) {j : Fin Config.numRegs}
    (hj : destination? i ≠ some (regWord j)) (u : State) : (e.apply u).readReg j = u.readReg j := by
  cases h with
  | jump p => rfl
  | write k v w hd hk =>
    refine readReg_writeReg_ne u k v ?_
    rintro rfl
    exact hj (hd.trans (congrArg some (toInt_eq_iff_eq_regWord.1 (regIndex?_eq_some.1 hk))))

/-- Settles O41: the halt and the aborts write no register and leave Running; a completion writes its destination. -/
theorem instructionWritesAtMostItsDestinationRegister :
    Obligations.InstructionWritesAtMostItsDestinationRegister := by
  intro i s t h
  obtain ⟨e, he, rfl⟩ := effect_of_exec h
  refine ⟨fun j hj => ?_, fun a => by rw [Effect.apply_mem], fun hrun hr => ?_⟩
  · cases he with
    | halt | bound | index => rfl
    | complete _ _ _ hc => exact hc.readReg_eq hj s
  · rw [hr] at hrun
    cases he with
    | halt | bound | index => cases hrun
    | complete _ _ _ hc => cases hc <;> exact ⟨rfl, rfl⟩

end Sys2Proof.Machine

/-! The step: its outcome in stage order, its events, and what it depends on (40_execution_engine.md R64 to R76; 60_exceptions.md
R106, R111). -/

namespace Sys2Proof.Machine

/-- The events an effect appends in a state with `n` completed cycles. -/
def Effect.events (n : Nat) : Effect → List Event
  | .halt => [.haltedAt n]
  | .abort c => [.abortedAt c n]
  | .jump _ => []
  | .write _ _ _ => []

section effect
variable (e : Effect) (s : State)

/-- An effect appends its events to any output stream and reads none of it. -/
theorem Effect.apply_with_out (out : List Event) :
    e.apply { s with out := out } = { e.apply s with out := out ++ e.events s.cycles } := by
  cases e with
  | halt | abort => rfl
  | jump | write => simp [Effect.apply, Effect.events, State.complete, State.writeReg]

theorem Effect.apply_out : (e.apply s).out = s.out ++ e.events s.cycles :=
  congrArg State.out (e.apply_with_out s s.out)

theorem Effect.apply_with_mem (m : Memory) : e.apply { s with mem := m } = { e.apply s with mem := m } := by
  cases e <;> rfl

theorem Effect.badOpcode_not_mem_events (n : Nat) (op : Word) : Event.badOpcode op ∉ e.events n := by
  cases e <;> simp [Effect.events]

/-- What an effect does to Memory, registers, pc and run state is decided by those four. -/
theorem Effect.apply_congr {s s' : State} (hmem : s'.mem = s.mem) (hregs : s'.regs = s.regs) (hpc : s'.pc = s.pc)
    (hrun : s'.runState = s.runState) :
    (e.apply s').mem = (e.apply s).mem ∧ (e.apply s').regs = (e.apply s).regs ∧ (e.apply s').pc = (e.apply s).pc ∧
      (e.apply s').runState = (e.apply s).runState := by
  cases e with
  | halt | abort => exact ⟨hmem, hregs, hpc, rfl⟩
  | jump p => exact ⟨hmem, hregs, rfl, hrun⟩
  | write k v p => exact ⟨hmem, congrArg (RegFile.set · k v) hregs, rfl, hrun⟩

end effect

/-- Settles O24: the halt and the aborts touch the status and the output stream; a completion counts. -/
theorem stepCompletesWholeOrLeavesNoEffect : Obligations.StepCompletesWholeOrLeavesNoEffect := by
  intro s t h
  obtain ⟨hr, es, e, -, rfl, -⟩ := effect_of_step h
  refine ⟨hr, e.apply_mem _, ?_⟩
  cases e with
  | halt => exact .inr ⟨.inl rfl, rfl, rfl, rfl⟩
  | abort c => exact .inr ⟨.inr rfl, rfl, rfl, rfl⟩
  | jump p => exact .inl ⟨hr, rfl, rfl, 0, fun _ _ => rfl⟩
  | write k v p => exact .inl ⟨hr, rfl, rfl, k, fun _ hj => readReg_writeReg_ne _ k v hj⟩

/-- Settles O26: from the terminal states by definition, from Running by the one effect of the step. -/
theorem stepExistsExactlyWhileRunning : Obligations.StepExistsExactlyWhileRunning := by
  refine fun s => ⟨fun h => by simp only [step, h], fun h => by simp only [step, h], fun h => ?_⟩
  obtain ⟨es, e, -, hstep⟩ := step_effect h
  exact ⟨_, hstep s (.refl s)⟩

/-- Settles O29: the other stream gives the step the same inputs, so the same events and effect. -/
theorem outputStreamIsOnlyAppendedTo : Obligations.OutputStreamIsOnlyAppendedTo := by
  intro s t out h
  obtain ⟨-, es, e, -, rfl, hstep⟩ := effect_of_step h
  refine ⟨es ++ e.events s.cycles, ?_, ?_⟩
  · rw [Effect.apply_out, emits_out, emits_cycles, List.append_assoc]
  · rw [hstep { s with out := out } ⟨rfl, rfl, rfl, rfl, fun _ _ => rfl⟩, State.emits, State.emits,
      e.apply_with_out s (out ++ es), e.apply_with_out s (s.out ++ es), List.append_assoc]

/-- Settles O30: the other state gives the step the same inputs, and the effect acts alike on the four parts. -/
theorem stepDependsOnMemoryRegistersAndPcAlone : Obligations.StepDependsOnMemoryRegistersAndPcAlone := by
  intro s s' t hmem hregs hpc hrun h
  obtain ⟨-, es, e, -, rfl, hstep⟩ := effect_of_step h
  exact ⟨_, hstep s' ⟨hrun.symm, hregs.symm, hpc.symm, by rw [hmem], fun _ _ => by rw [hmem]⟩,
    e.apply_congr hmem.symm hregs.symm hpc.symm hrun.symm⟩

/-- Settles O31: the opcode Word and its operand Words are all that a step takes from Memory. -/
theorem noWordBeyondTheInstructionInfluencesTheStep : Obligations.NoWordBeyondTheInstructionInfluencesTheStep := by
  intro s t m h hopcode hoperands
  obtain ⟨-, es, e, -, rfl, hstep⟩ := effect_of_step h
  rw [hstep { s with mem := m } ⟨rfl, rfl, rfl, hopcode, hoperands⟩]
  exact congrArg _ (e.apply_with_mem (s.emits es) m)

theorem not_pcInRange_iff {pc : Word} : ¬ PcInRange pc ↔ pc.toInt < 0 ∨ 256 ≤ pc.toInt := by
  simp only [PcInRange, Config.memSpace]
  omega

/-- Settles O22: the abort alone, with no event of a fetch before it. -/
theorem outOfRangePcAbortsBeforeTheFetch : Obligations.OutOfRangePcAbortsBeforeTheFetch :=
  fun _ hr hp => step_of_pcOutOfRange hr (not_pcInRange_iff.2 hp)

/-- The fetch of a defined opcode emits its `Trace` and nothing else (R65). -/
theorem StepEffect.events_eq {s : State} {es : List Event} {e : Effect} (h : StepEffect s es e) (hp : PcInRange s.pc)
    (hgood : ¬ IsBadOpcode (fetchOpcode s)) : es = [.trace (fetchOpcode s)] := by
  cases h with
  | pcOutOfRange hout => exact absurd hp hout
  | badOpcode _ hbad => exact absurd hbad hgood
  | bound _ ho | instr _ ho => rw [ho]

/-- Settles O18: the events of the fetch in each of its three cases, before those of the effect. -/
theorem fetchEmitsTraceAndThenBadOpcodeIfOutOfRange : Obligations.FetchEmitsTraceAndThenBadOpcodeIfOutOfRange := by
  intro s t h
  obtain ⟨hr, es, e, he, hform, -⟩ := effect_of_step h
  refine ⟨fun hp hbad => ?_, fun hp hlow hhigh => ?_, fun hp => ?_⟩
  · rw [step_of_badOpcode hr hp hbad] at h
    cases h
    exact ⟨_, rfl⟩
  · obtain rfl := he.events_eq hp (not_or.2 ⟨Int.not_lt.2 hlow, Int.not_lt.2 hhigh⟩)
    refine ⟨e.events s.cycles, ?_, e.badOpcode_not_mem_events _⟩
    rw [hform, Effect.apply_out, emits_out, emits_cycles, List.append_assoc]
    rfl
  · rw [step_of_pcOutOfRange hr hp] at h
    cases h
    exact ⟨_, rfl, nofun⟩

/-- A well-formed instruction past the operand-bound check completes. -/
theorem exec_of_wellFormed {i : Instr} {s : State} (hi : i.opcode ≠ .halt) (hw : i.WellFormed)
    (hb : ¬ OperandsOutOfBounds i.opcode s.pc) : ∃ e, Completes i s e ∧ exec i s = .next (e.apply s) := by
  obtain ⟨e, he, hexec⟩ := exec_effect i s
  cases he with
  | halt h => exact absurd (opcode_eq_halt.2 h) hi
  | bound _ h => exact absurd h hb
  | index _ _ h => exact absurd hw h
  | complete _ _ _ hc => exact ⟨e, hc, hexec s rfl rfl⟩

/-- A completion leaves the run state and the abort cause alone (R75). -/
theorem Completes.status_eq {i : Instr} {s : State} {e : Effect} (h : Completes i s e) (u : State) :
    (e.apply u).runState = u.runState ∧ (e.apply u).abortCause = u.abortCause := by
  cases h <;> exact ⟨rfl, rfl⟩

/-- Settles O23: each clause has the step's one outcome. -/
theorem firstApplicableOutcomeInStageOrderDecides : Obligations.FirstApplicableOutcomeInStageOrderDecides := by
  intro s t h
  obtain ⟨hr, -⟩ := step_cases h
  refine ⟨fun hp => ?_, fun hp ho => ?_, fun hp hno => ?_,
    fun i hp ho hi => ⟨fun hb => ?_, fun hfit hwords => ?_⟩⟩
  · rw [step_of_pcOutOfRange hr hp] at h
    cases h
    exact ⟨rfl, rfl⟩
  · rw [step_of_haltOpcode hr hp ho] at h
    cases h
    exact ⟨rfl, rfl⟩
  · rw [step_of_badOpcode hr hp (isBadOpcode_iff.2 (opcode?_eq_none.2 hno))] at h
    cases h
    exact ⟨rfl, rfl⟩
  · rw [step_of_bound hr hp ho (mt opcode_eq_halt.1 hi) hb] at h
    cases h
    exact ⟨rfl, rfl⟩
  · have hb : ¬ OperandsOutOfBounds i.opcode s.pc := Int.not_le.2 hfit
    rw [step_of_words hr hp ho (by omega) hwords] at h
    refine ⟨fun hw => ?_, fun hw => ?_⟩
    · rw [exec_of_illFormed (s := s.emit (.trace i.opcode.word)) hw hb] at h
      cases h
      exact ⟨rfl, rfl⟩
    · obtain ⟨e, hc, hexec⟩ := exec_of_wellFormed (s := s.emit (.trace i.opcode.word)) (mt opcode_eq_halt.1 hi) hw hb
      rw [hexec] at h
      cases h
      obtain ⟨hrun, hcause⟩ := hc.status_eq (s.emit (.trace i.opcode.word))
      exact ⟨hrun.trans hr, hcause⟩

end Sys2Proof.Machine

/-! The pc after a completed step, and runs of steps (10_state.md R21; 40_execution_engine.md R74, R78; 42_control_instructions.md
R93). -/

namespace Sys2Proof.Machine

/-- The step after a fetch that gives an instruction. -/
theorem step_of_fetched {s : State} {i : Instr} (hr : s.runState = .running) (h : (fetch s).2 = .ok i) :
    step s = exec i (s.emit (.trace i.opcode.word)) := by
  obtain ⟨hp, ho, hb, hw⟩ := words_of_fetch_ok h
  exact step_of_words hr hp ho hb hw

/-- An instruction that leaves the engine Running has passed its checks and completed. -/
theorem EffectOf.of_running {i : Instr} {s u : State} {e : Effect} (h : EffectOf i s e)
    (hr : (e.apply u).runState = .running) :
    ¬ OperandsOutOfBounds i.opcode s.pc ∧ i.WellFormed ∧ Completes i s e := by
  cases h with
  | halt | bound | index => cases hr
  | complete _ hb hw hc => exact ⟨hb, hw, hc⟩

/-- A sequential advance of an instruction with two operands or more ends in 3..255 (R21). -/
theorem sequentialPc_mem_range {i : Instr} {s : State} (hp : PcInRange s.pc) (hb : ¬ OperandsOutOfBounds i.opcode s.pc)
    (harity : 2 ≤ i.opcode.arity) :
    (sequentialPc i.opcode s).toInt = s.pc.toInt + (i.length : Int) ∧ 3 ≤ (sequentialPc i.opcode s).toInt ∧
      (sequentialPc i.opcode s).toInt ≤ 255 := by
  have hpc := sequentialPc_toInt_add_length hp hb
  have hlow := hp.1
  simp only [OperandsOutOfBounds, Config.memSpace] at hb
  rw [hpc]
  exact ⟨rfl, by omega, by omega⟩

theorem two_le_arity_of_destination? {i : Instr} (h : (destination? i).isSome) : 2 ≤ i.opcode.arity := by
  cases i with
  | halt | jmp | jmpc => cases h
  | add | cmp | mov | set => simp [Instr.opcode, Opcode.arity]

/-- A JMPC that completes with a 0 condition falls through to the sequential next pc (R90). -/
theorem pc_of_exec_jmpc_zero {s t : State} {target : RegOperand} {condition : Fin Config.numRegs}
    (h : exec (.jmpc target (regWord condition)) s = .next t) (hr : t.runState = .running)
    (hzero : s.readReg condition = 0x0000#16) : ¬ OperandsOutOfBounds .jmpc s.pc ∧ t.pc = sequentialPc .jmpc s := by
  obtain ⟨e, he, rfl⟩ := effect_of_exec h
  obtain ⟨hb, hw, -⟩ := he.of_running hr
  obtain ⟨k, hk⟩ := regIndex?_of_isRegIndex (wellFormed_iff.1 hw target List.mem_cons_self)
  obtain rfl := toInt_eq_iff_eq_regWord.1 (regIndex?_eq_some.1 hk)
  rw [exec_jmpc k condition hb, if_neg (not_not.2 hzero)] at h
  injection h with h
  exact ⟨hb, h ▸ rfl⟩

/-- Settles O28: the next pc is the sequential one, past the operand-bound check. -/
theorem sequentialAdvanceStaysInMemory : Obligations.SequentialAdvanceStaysInMemory := by
  intro s t i h hf hrun hseq
  obtain ⟨hr, -⟩ := step_cases h
  obtain ⟨hp, -⟩ := words_of_fetch_ok hf
  rw [step_of_fetched hr hf] at h
  rcases hseq with hd | ⟨target, condition, rfl, hzero⟩
  · obtain ⟨e, he, rfl⟩ := effect_of_exec h
    obtain ⟨hb, -, hc⟩ := he.of_running hrun
    cases hc with
    | jump p hnone => simp [hnone] at hd
    | write k v w => exact sequentialPc_mem_range (s := s) hp hb (two_le_arity_of_destination? hd)
  · obtain ⟨hb, hpc⟩ := pc_of_exec_jmpc_zero h hrun hzero
    rw [hpc]
    exact sequentialPc_mem_range (i := .jmpc target (regWord condition)) (s := s) hp hb (Nat.le_refl 2)

/-- A jump with register operands and, for JMPC, a true condition completes at the target's value (R89, R90). -/
theorem exec_takenJump {s : State} {i : Instr} {target : Fin Config.numRegs}
    (hi : i = .jmp (regWord target) ∨
      ∃ condition, i = .jmpc (regWord target) (regWord condition) ∧ (s.readReg condition).toInt ≠ 0)
    (hb : ¬ OperandsOutOfBounds i.opcode s.pc) : exec i s = .next (s.complete (s.readReg target)) := by
  rcases hi with rfl | ⟨condition, rfl, hc⟩
  · exact exec_jmp target hb
  · rw [exec_jmpc target condition hb, if_pos (isTrue_iff.2 hc)]

/-- Settles O42: the jump completes, and the pc it left is out of range at the next step. -/
theorem outOfRangeJumpCompletesAndTheNextStepAborts : Obligations.OutOfRangeJumpCompletesAndTheNextStepAborts := by
  intro s i target hr hf hi hfit hout
  have hstep : step s = .next ((s.emit (.trace i.opcode.word)).complete (s.readReg target)) := by
    rw [step_of_fetched hr hf]
    exact exec_takenJump hi (Int.not_le.2 hfit)
  exact ⟨_, _, hstep, hr, rfl, rfl, step_of_pcOutOfRange hr (not_pcInRange_iff.2 hout), rfl, rfl, rfl, rfl, rfl⟩

/-- A run that answers a state begins with a step that does. -/
theorem run_succ_eq_next {M : Host.Core} {n : Nat} {s t : M.State} (h : M.run (n + 1) s = .next t) :
    ∃ u, M.step s = .next u ∧ M.run n u = .next t := by
  rw [Host.Core.run] at h
  cases hs : M.step s with
  | next u => exact ⟨u, rfl, by simpa only [hs] using h⟩
  | fault r => simp [hs] at h
  | refused r => simp [hs] at h

/-- A run from a terminal state has no step (R78). -/
theorem run_of_not_running {n : Nat} {s t : State} (hr : s.runState ≠ .running)
    (h : Host.Core.run Sys2Proof.core n s = .next t) : n = 0 ∧ t = s := by
  cases n with
  | zero => cases h; exact ⟨rfl, rfl⟩
  | succ n =>
    obtain ⟨u, hu, -⟩ := run_succ_eq_next h
    exact absurd (step_cases hu).1 hr

/-- Settles O48, by induction on the number of steps: the first one completes, or the run is that step alone. -/
theorem runOfStepsAddsItsLengthToTheCycleCount : Obligations.RunOfStepsAddsItsLengthToTheCycleCount := by
  intro n
  induction n with
  | zero =>
    intro s t hr h
    cases h
    exact .inl ⟨hr, rfl⟩
  | succ n ih =>
    intro s t hr h
    obtain ⟨u, hu, hrun⟩ := run_succ_eq_next h
    obtain ⟨hcount, hstop⟩ := cyclesCountCompletedStepsOnly s u hu
    by_cases hur : u.runState = .running
    · have hcycles := hcount hur
      refine (ih u t hur hrun).imp (fun ⟨htr, ht⟩ => ⟨htr, ?_⟩) (fun ⟨htr, ht⟩ => ⟨htr, ?_⟩) <;> omega
    · obtain ⟨rfl, rfl⟩ := run_of_not_running hur hrun
      exact .inr ⟨hur, by rw [hstop hur]⟩

end Sys2Proof.Machine
